-- ==== Sys2Proof/Word.lean ====
section
/-!
DEFINITION. The words of the execution block: register values, instruction words and bytes of an instruction image.
-/

namespace Sys2Proof

/-- A register value: an unsigned integer of XLEN = 64 bits (R7). -/
abbrev Word := BitVec 64

/-- An instruction word, and a 32-bit control register (R41, R70). -/
abbrev IWord := BitVec 32

/-- A byte of an instruction image (R58). -/
abbrev Byte := BitVec 8

/-- The signed view of a register value, used by the host's preload and display only; no instruction reads it (R13). -/
def sview (v : Word) : Int := v.toInt

end Sys2Proof
end

