-- ==== Sys2Proof/Config.lean ====
section
/-!
DEFINITION. The parameters the spec leaves OPEN (R9, R10), the fixed ones (R11), and the free values of unloaded instruction memory (R230).
-/

namespace Sys2Proof

/-- SHIFT_POLICY (R9): the result of a shift by 64 or more. -/
inductive ShiftPolicy where
  | mod64   -- "shift amount is taken modulo width"
  | zero    -- "result is zero"
deriving DecidableEq, Repr

/-- The OPEN parameters of the block (R9, R10, R12), fixed for a machine; no step changes them (R47). -/
structure Params where
  shiftPolicy : ShiftPolicy
  pcWidth     : Nat
deriving DecidableEq, Repr

namespace Config

/-- LID_WIDTH (R11). -/
def lidWidth : Nat := 24

/-- The number of label-table entries, 2^24 (R11, R55). -/
def lidCount : Nat := 2 ^ lidWidth

/-- The parameters of the machine that State.reset describes: SHIFT_POLICY is the spec's reference configuration (R9);
PC_WIDTH = 32 is a DESIGN CHOICE, unsafe where a statement rests on it (notes/assumptions/2.md). -/
def resetParams : Params := { shiftPolicy := .mod64, pcWidth := 32 }

/-- The byte that instruction memory holds at an address the host has not loaded since a RESET: "unspecified: any value"
(R230, I2). A free value, drawn from the number of RESETs so far and the byte address (notes/assumptions/5.md). -/
opaque unloadedByte : Nat → Nat → Byte

end Config

end Sys2Proof
end

