-- ==== Sys2Proof/Syntax.lean ====
section
/-!
DEFINITION. The instruction set: one constructor for each of the 17 rows of spec/opcode_table.json (R2, R77).
-/

namespace Sys2Proof

/-- A register index 0 to 7 (R8); all eight values are legal in every register field (R73). -/
abbrev Reg := Fin 8

/-- The closed set of instruction kinds (R2), with the operands of their formats (R72): `rd` the destination (`to` or `reg`),
`rs1` and `rs2` the sources (`from`, `op1`, `op2`); `ov` and `sh` the two shift fields (R75); `lid` a label identifier (R74). -/
inductive Instr where
  | noop
  | debug
  | zero (rd : Reg)
  | mov  (rd rs1 : Reg)
  | add  (rd rs1 rs2 : Reg)
  | sub  (rd rs1 rs2 : Reg)
  | inc  (rd : Reg)
  | dec  (rd : Reg)
  | and  (rd rs1 rs2 : Reg)
  | or   (rd rs1 rs2 : Reg)
  | xor  (rd rs1 rs2 : Reg)
  | not  (rd : Reg)
  | shl  (rd : Reg) (ov : Bool) (sh : Nat)
  | shr  (rd : Reg) (ov : Bool) (sh : Nat)
  | jz   (lid : Nat)
  | jnz  (lid : Nat)
  | j    (lid : Nat)
deriving DecidableEq, Repr

end Sys2Proof
end

