-- ==== Sys2Proof/WellFormed.lean ====
section
/-!
DEFINITION. Which instructions a word can carry: the shift field is 6 bits wide (R75) and a label identifier 24 (R74).
-/

namespace Sys2Proof

/-- The shift amount of a word lies in 0 to 63 (R14, R75). -/
def shiftFieldFits (sh : Nat) : Bool := decide (sh < 64)

/-- A label identifier lies in 0 to 2^24 - 1 (R11, R74). -/
def lidFits (lid : Nat) : Bool := decide (lid < Config.lidCount)

/-- Every operand fits its field. Register operands fit by their type. -/
def Instr.wellFormed : Instr → Bool
  | .noop | .debug => true
  | .zero _ | .inc _ | .dec _ | .not _ => true
  | .mov _ _ => true
  | .add _ _ _ | .sub _ _ _ | .and _ _ _ | .or _ _ _ | .xor _ _ _ => true
  | .shl _ _ sh | .shr _ _ sh => shiftFieldFits sh
  | .jz lid | .jnz lid | .j lid => lidFits lid

end Sys2Proof
end

