-- ==== Sys2Proof/Decode.lean ====
section
/-!
DEFINITION. The decoder (R78), total on all words, rejecting by name; the encoder (R72, R105); the byte image of a word (R58); the masks and matches of the opcode table (R77).
-/

namespace Sys2Proof

/-- `w[hi:lo]` read as an unsigned integer (R13). -/
def field (w : IWord) (hi lo : Nat) : Nat := (w.extractLsb hi lo).toNat

/-- The three-bit register field whose lowest bit is `lo` (R73). -/
def regField (w : IWord) (lo : Nat) : Reg := Fin.ofNat 8 (field w (lo + 2) lo)

/-- Why a word (or an image) is no instruction. The first two are the illegal words of R79. -/
inductive DecodeReject where
  | opcodeUnassigned   -- opcodes 17 to 31
  | reservedBitsSet    -- a bit the format marks 0 is set
  | imageTooShort      -- fewer than four bytes: no word (R70)
deriving DecidableEq, Repr

/-- The instruction, where the word's reserved bits are all zero (R76). -/
def whenZero (reserved : Nat) (i : Instr) : Except DecodeReject Instr :=
  if reserved = 0 then .ok i else .error .reservedBitsSet

/-- The decode function (R78). -/
def decode (w : IWord) : Except DecodeReject Instr :=
  let rd := regField w 24
  let rs1 := regField w 21
  let rs2 := regField w 18
  let ov := decide (field w 6 6 = 1)
  let sh := field w 5 0
  let lid := field w 23 0
  match field w 31 27 with
  | 0  => whenZero (field w 26 0) .noop
  | 1  => whenZero (field w 26 0) .debug
  | 2  => whenZero (field w 23 0) (.zero rd)
  | 3  => whenZero (field w 20 0) (.mov rd rs1)
  | 4  => whenZero (field w 17 0) (.add rd rs1 rs2)
  | 5  => whenZero (field w 17 0) (.sub rd rs1 rs2)
  | 6  => whenZero (field w 23 0) (.inc rd)
  | 7  => whenZero (field w 23 0) (.dec rd)
  | 8  => whenZero (field w 17 0) (.and rd rs1 rs2)
  | 9  => whenZero (field w 17 0) (.or rd rs1 rs2)
  | 10 => whenZero (field w 17 0) (.xor rd rs1 rs2)
  | 11 => whenZero (field w 23 0) (.not rd)
  | 12 => whenZero (field w 23 7) (.shl rd ov sh)
  | 13 => whenZero (field w 23 7) (.shr rd ov sh)
  | 14 => whenZero (field w 26 24) (.jz lid)
  | 15 => whenZero (field w 26 24) (.jnz lid)
  | 16 => whenZero (field w 26 24) (.j lid)
  | _  => .error .opcodeUnassigned

/-- The word whose image is the four bytes at offsets 0 to 3, little-endian (R58). -/
def wordOfBytes (b0 b1 b2 b3 : Byte) : IWord := b3 ++ b2 ++ b1 ++ b0

/-- Byte `k` of a word's image: `w[8k+7 : 8k]` (R58). -/
def byteOfWord (w : IWord) (k : Nat) : Byte := w.extractLsb' (8 * k) 8

/-- The four bytes of a word's image, in the order of their offsets (R58). -/
def bytesOfWord (w : IWord) : List Byte := [byteOfWord w 0, byteOfWord w 1, byteOfWord w 2, byteOfWord w 3]

/-- Decoding the instruction at the head of a byte image: every instruction takes four bytes (R58, R70). -/
def decodeBytes : List Byte → Except DecodeReject (Instr × List Byte)
  | b0 :: b1 :: b2 :: b3 :: rest => (decode (wordOfBytes b0 b1 b2 b3)).map (fun i => (i, rest))
  | _ => .error .imageTooShort

/-- The three bits of a register field (R73). -/
def regBits (r : Reg) : BitVec 3 := BitVec.ofNat 3 r.val

/-- Format N (R72). -/
def formatN (op : BitVec 5) : IWord := op ++ 0#27

/-- Format R1 (R72). -/
def formatR1 (op : BitVec 5) (rd : Reg) : IWord := op ++ regBits rd ++ 0#24

/-- Format R2 (R72). -/
def formatR2 (op : BitVec 5) (rd rs1 : Reg) : IWord := op ++ regBits rd ++ regBits rs1 ++ 0#21

/-- Format R3 (R72). -/
def formatR3 (op : BitVec 5) (rd rs1 rs2 : Reg) : IWord := op ++ regBits rd ++ regBits rs1 ++ regBits rs2 ++ 0#18

/-- Format SH (R72, R75). -/
def formatSH (op : BitVec 5) (rd : Reg) (ov : Bool) (sh : Nat) : IWord :=
  op ++ regBits rd ++ 0#17 ++ BitVec.ofBool ov ++ BitVec.ofNat 6 sh

/-- Format L (R72, R74). -/
def formatL (op : BitVec 5) (lid : Nat) : IWord := op ++ 0#3 ++ BitVec.ofNat 24 lid

/-- The word of an instruction (R72, R77, R105). -/
def encode : Instr → IWord
  | .noop => formatN 0#5
  | .debug => formatN 1#5
  | .zero rd => formatR1 2#5 rd
  | .mov rd rs1 => formatR2 3#5 rd rs1
  | .add rd rs1 rs2 => formatR3 4#5 rd rs1 rs2
  | .sub rd rs1 rs2 => formatR3 5#5 rd rs1 rs2
  | .inc rd => formatR1 6#5 rd
  | .dec rd => formatR1 7#5 rd
  | .and rd rs1 rs2 => formatR3 8#5 rd rs1 rs2
  | .or rd rs1 rs2 => formatR3 9#5 rd rs1 rs2
  | .xor rd rs1 rs2 => formatR3 10#5 rd rs1 rs2
  | .not rd => formatR1 11#5 rd
  | .shl rd ov sh => formatSH 12#5 rd ov sh
  | .shr rd ov sh => formatSH 13#5 rd ov sh
  | .jz lid => formatL 14#5 lid
  | .jnz lid => formatL 15#5 lid
  | .j lid => formatL 16#5 lid

/-- The opcode of an instruction (R77). -/
def opcodeOf : Instr → Nat
  | .noop => 0
  | .debug => 1
  | .zero _ => 2
  | .mov _ _ => 3
  | .add _ _ _ => 4
  | .sub _ _ _ => 5
  | .inc _ => 6
  | .dec _ => 7
  | .and _ _ _ => 8
  | .or _ _ _ => 9
  | .xor _ _ _ => 10
  | .not _ => 11
  | .shl _ _ _ => 12
  | .shr _ _ _ => 13
  | .jz _ => 14
  | .jnz _ => 15
  | .j _ => 16

/-- The (mask, match) rows of the opcode map, opcode 0 first (R77). -/
def opcodeRows : List (IWord × IWord) :=
  [ (0xFFFFFFFF#32, 0x00000000#32), (0xFFFFFFFF#32, 0x08000000#32), (0xF8FFFFFF#32, 0x10000000#32),
    (0xF81FFFFF#32, 0x18000000#32), (0xF803FFFF#32, 0x20000000#32), (0xF803FFFF#32, 0x28000000#32),
    (0xF8FFFFFF#32, 0x30000000#32), (0xF8FFFFFF#32, 0x38000000#32), (0xF803FFFF#32, 0x40000000#32),
    (0xF803FFFF#32, 0x48000000#32), (0xF803FFFF#32, 0x50000000#32), (0xF8FFFFFF#32, 0x58000000#32),
    (0xF8FFFF80#32, 0x60000000#32), (0xF8FFFF80#32, 0x68000000#32), (0xFF000000#32, 0x70000000#32),
    (0xFF000000#32, 0x78000000#32), (0xFF000000#32, 0x80000000#32) ]

/-- `(w & mask) == match` (R77). -/
def matchesRow (w : IWord) (row : IWord × IWord) : Bool := w &&& row.1 == row.2

/-- A legal word: one that matches a row of the opcode map (R77). -/
def legalWord (w : IWord) : Bool := opcodeRows.any (matchesRow w)

/-- The word of an opcode-table row as the host numbers its bits: bits from `nbits` up are 0. -/
def tableWord (nbits w : Nat) : IWord := BitVec.ofNat 32 (w % 2 ^ nbits)

/-- What the decoder reads from the bytes of a table word, laid out as an instruction image (R58). -/
def decodeTableWord (nbits w : Nat) : Option Instr :=
  match decodeBytes (bytesOfWord (tableWord nbits w)) with
  | .ok (i, _) => some i
  | .error _ => none

end Sys2Proof
end

