-- ==== Sys2Proof/Machine/State.lean ====
section
/-!
DEFINITION. The state of the execution block as plain data (R20 to R47, R51, R55, R230), the transactions of its host (R45), the reasons a step can stop, and the state after RESET.
-/

namespace Sys2Proof.Machine

/-- The five run states (R40). -/
inductive RunState where
  | idle | run | debugWait | halted | faulted
deriving DecidableEq, Repr

/-- The recorded cause of a fault (R200); `none` before any fault. -/
inductive Cause where
  | none | illegalInstruction | unknownLabel | pcRange | debugInputFailure
deriving DecidableEq, Repr

/-- An entry of the label table (R55). -/
structure LtEntry where
  valid  : Bool
  target : Nat
deriving DecidableEq, Repr

/-- The transactions by which the host acts on the block (R45). -/
inductive HostTx where
  | reset
  | loadImem (i : Nat) (w : IWord)
  | loadLt (lid : Nat) (t : Nat)
  | setIcount (n : Nat)
  | preload (r : Reg) (v : Word)
  | start
  | resume
  | inputFail
  | read
deriving DecidableEq, Repr

/-- What the host does at one step: it leaves the block alone, or it issues one transaction, which is atomic with respect to
the block's steps (R45). The model's own; notes/assumptions/6.md. -/
inductive HostMove where
  | quiet
  | issue (tx : HostTx)
deriving DecidableEq, Repr

/-- What READ returns (R45): `x[0..7]`, `zf`, `pc` and the registers of R41. -/
structure HostView where
  x         : Vector Word 8
  zf        : Bool
  pc        : Nat
  status    : IWord
  cause     : IWord
  faultPc   : Nat
  faultInfo : IWord
  icount    : Nat
deriving DecidableEq, Repr

/-- The state of the block. The spec's own state comes first; `cfg` holds the OPEN parameters (R47, notes/assumptions/1.md);
`epoch`, `host` and `reply` are the model's own (notes/assumptions/5.md, 6.md and 10.md). -/
structure State where
  /-- The general registers x[0] to x[7] (R20). -/
  x : Vector Word 8
  /-- The zero flag (R24). -/
  zf : Bool
  /-- The program counter, an instruction index (R30). -/
  pc : Nat
  /-- The run state, STATUS.STATE (R40, R41). -/
  run : RunState
  /-- CAUSE.CODE (R41, R200). -/
  cause : Cause
  /-- FAULT_PC (R41). -/
  faultPc : Nat
  /-- FAULT_INFO (R41). -/
  faultInfo : IWord
  /-- ICOUNT, the instruction count N (R42). -/
  icount : Nat
  /-- Instruction memory (R51, R52): the bytes loaded since RESET, word `i` at addresses `4i` to `4i + 3`, little-endian (R58). -/
  imem : List Host.Cell
  /-- The label table (R55): the entries that differ from their reset value. -/
  lt : List (Nat × LtEntry)
  /-- SHIFT_POLICY and PC_WIDTH (R9, R10). -/
  cfg : Params
  /-- How many RESETs have happened; the free values of unloaded instruction memory are drawn from it. -/
  epoch : Nat
  /-- The host's coming moves, the next one first. -/
  host : List HostMove
  /-- What the last READ returned. -/
  reply : Option HostView
deriving DecidableEq, Repr

/-- The reasons a step stops the MODEL. None is a fault of the spec: those are entered as next states (R201). Each is raised by
a transaction that R45 does not list because of its argument ("any transaction not listed here does not exist"). -/
inductive Fault where
  /-- LOAD_IMEM of an index outside `0 <= i < 2^PC_WIDTH - 1` (R45, R51); raised by the host port; safe. -/
  | imemIndexOutside
  /-- LOAD_LT of an identifier of 2^24 or more (R51, R55); raised by the host port; safe. -/
  | labelIdOutside
  /-- LOAD_LT of a target wider than PC_WIDTH bits (R51, R55); raised by the host port; safe. -/
  | labelTargetTooWide
  /-- SET_ICOUNT of a count above `2^PC_WIDTH - 1` (R45); raised by the host port; safe. -/
  | icountTooWide
deriving DecidableEq, Repr

/-- The reasons a step has no meaning. -/
inductive Refusal where
  /-- An instruction of the opcode table without a meaning yet; raised by exec's arm for it, and no arm raises it; safe. -/
  | notModelled (mnemonic : String)
deriving DecidableEq, Repr

/-- The block right after RESET (R230), with no transaction of the host to come. -/
def State.reset : State where
  x := Vector.replicate 8 0#64
  zf := false
  pc := 0
  run := .idle
  cause := .none
  faultPc := 0
  faultInfo := 0#32
  icount := 0
  imem := []
  lt := []
  cfg := Config.resetParams
  epoch := 0
  host := []
  reply := none

end Sys2Proof.Machine
end

