-- ==== Sys2Proof/Machine/Ops.lean ====
section
/-!
DEFINITION. The named operations over the state: keyed memories in canonical form, instruction memory (R52 to R54), label table (R55, R56), registers, program counter, fault entry (R201) and the other changes of run state (R40).
-/

namespace Sys2Proof.Machine

/-! ### Keyed memories: lists of (key, value) pairs with strictly rising keys -/

/-- The value listed at a key. -/
def Cells.read {α : Type} : List (Nat × α) → Nat → Option α
  | [], _ => none
  | (k, v) :: rest, a => if k = a then some v else Cells.read rest a

/-- List a value at a key, keeping the keys rising. -/
def Cells.write {α : Type} : List (Nat × α) → Nat → α → List (Nat × α)
  | [], a, v => [(a, v)]
  | (k, u) :: rest, a, v =>
    if a < k then (a, v) :: (k, u) :: rest
    else if a = k then (a, v) :: rest
    else (k, u) :: Cells.write rest a v

/-- List no value at a key. -/
def Cells.erase {α : Type} : List (Nat × α) → Nat → List (Nat × α)
  | [], _ => []
  | (k, u) :: rest, a => if k = a then rest else (k, u) :: Cells.erase rest a

/-- Every listed key is at least `lo`, and the keys rise strictly. -/
def Cells.risingFrom {α : Type} : Nat → List (Nat × α) → Bool
  | _, [] => true
  | lo, (k, _) :: rest => decide (lo ≤ k) && Cells.risingFrom (k + 1) rest

/-! ### Instruction memory -/

/-- The canonical form of instruction memory: addresses strictly rising. An unlisted address holds no loaded byte, so no entry
can equal what an unlisted address reads as. -/
def Memory.wf (m : List Host.Cell) : Bool := Cells.risingFrom 0 m

/-- The byte at an address: the loaded one, or a free value where the host has loaded none (R230, I2). -/
def State.imemByte (s : State) (a : Nat) : Byte := (Cells.read s.imem a).getD (Config.unloadedByte s.epoch a)

/-- IFetch (R53): the word at an index, from its little-endian image (R58). -/
def State.ifetch (s : State) (i : Nat) : IWord :=
  wordOfBytes (s.imemByte (4 * i)) (s.imemByte (4 * i + 1)) (s.imemByte (4 * i + 2)) (s.imemByte (4 * i + 3))

/-- The four bytes of a word, listed at their addresses (R58). -/
def Memory.writeWord (m : List Host.Cell) (i : Nat) (w : IWord) : List Host.Cell :=
  Cells.write (Cells.write (Cells.write (Cells.write m (4 * i) (byteOfWord w 0)) (4 * i + 1) (byteOfWord w 1))
    (4 * i + 2) (byteOfWord w 2)) (4 * i + 3) (byteOfWord w 3)

/-- Word `i` of instruction memory becomes `w` (R45, LOAD_IMEM). -/
def State.loadWord (s : State) (i : Nat) (w : IWord) : State := { s with imem := Memory.writeWord s.imem i w }

/-- The host has loaded the word at an index since the last RESET (R235, P2). -/
def State.loaded (s : State) (i : Nat) : Bool :=
  (Cells.read s.imem (4 * i)).isSome && (Cells.read s.imem (4 * i + 1)).isSome &&
  (Cells.read s.imem (4 * i + 2)).isSome && (Cells.read s.imem (4 * i + 3)).isSome

/-- The number of words of the instruction-memory space: indices `0 .. 2^PC_WIDTH - 2` (R51). -/
def Params.imemWords (c : Params) : Nat := 2 ^ c.pcWidth - 1

/-! ### Label table -/

/-- What an entry holds after RESET (R230). -/
def LtEntry.empty : LtEntry := { valid := false, target := 0 }

/-- The canonical form of the label table: identifiers strictly rising, no entry equal to the reset value. -/
def LabelTable.wf (l : List (Nat × LtEntry)) : Bool :=
  Cells.risingFrom 0 l && l.all (fun c => decide (c.2 ≠ LtEntry.empty))

/-- LTRead (R56): the entry at an identifier. -/
def State.ltRead (s : State) (lid : Nat) : LtEntry := (Cells.read s.lt lid).getD LtEntry.empty

/-- A table with one entry replaced; the reset value is not listed. -/
def LabelTable.write (l : List (Nat × LtEntry)) (lid : Nat) (e : LtEntry) : List (Nat × LtEntry) :=
  if e = LtEntry.empty then Cells.erase l lid else Cells.write l lid e

/-- `LT[lid]` becomes `{valid = 1, target = t}` (R45, LOAD_LT). -/
def State.loadLabel (s : State) (lid t : Nat) : State :=
  { s with lt := LabelTable.write s.lt lid { valid := true, target := t } }

/-! ### Registers, flag and program counter -/

/-- `x[r]` (R14). -/
def State.reg (s : State) (r : Reg) : Word := s.x[r]

/-- `x[r] <- v` (R14). No register is hard-wired (R20). -/
def State.setReg (s : State) (r : Reg) (v : Word) : State := { s with x := s.x.set r v }

/-- `zf <- b` (R14). -/
def State.setZf (s : State) (b : Bool) : State := { s with zf := b }

/-- `pc <- t` (R14). -/
def State.jumpTo (s : State) (t : Nat) : State := { s with pc := t }

/-- `pc <- pc + 1` (R32). It never wraps under the bound of R10 (R33). -/
def State.nextPc (s : State) : State := s.jumpTo (s.pc + 1)

/-! ### Changes of run state -/

/-- Fault entry (R201): the cause, the faulting instruction's own index and the information word are recorded, and the block is
FAULTED; `x`, `zf` and `pc` keep their values. There is no return from a fault but RESET (R208). -/
def State.raise (s : State) (c : Cause) (info : IWord) : State :=
  { s with cause := c, faultPc := s.pc, faultInfo := info, run := .faulted }

/-- Normal termination (R35). -/
def State.halt (s : State) : State := { s with run := .halted }

/-- The breakpoint's wait (R121): `pc` still indexes the `debug`. -/
def State.awaitHost (s : State) : State := { s with run := .debugWait }

/-- START (R232). -/
def State.startRun (s : State) : State := { s with run := .run }

/-- RESUME (R122): the only place where `debug` advances `pc`. -/
def State.resumeRun (s : State) : State := s.nextPc.startRun

/-- RESET (R230). The parameters are no state of the block (R47) and stay; instruction memory holds unspecified values again, so
its free values are drawn anew; the host's coming moves and the answer it holds are the host's own. -/
def State.resetBlock (s : State) : State :=
  { State.reset with cfg := s.cfg, epoch := s.epoch + 1, host := s.host, reply := s.reply }

/-! ### The registers the host reads -/

/-- The run-state code of R40. -/
def RunState.code : RunState → Nat
  | .idle => 0
  | .run => 1
  | .debugWait => 2
  | .halted => 3
  | .faulted => 4

/-- The fault code of R200. Codes 5 to 7 are never written. -/
def Cause.code : Cause → Nat
  | .none => 0
  | .illegalInstruction => 1
  | .unknownLabel => 2
  | .pcRange => 3
  | .debugInputFailure => 4

/-- The STATUS register: `[2:0]` STATE, the rest read as 0 (R41). -/
def State.statusWord (s : State) : IWord := BitVec.ofNat 32 s.run.code

/-- The CAUSE register: `[2:0]` CODE, the rest read as 0 (R41). -/
def State.causeWord (s : State) : IWord := BitVec.ofNat 32 s.cause.code

/-- What READ returns (R45). -/
def State.view (s : State) : HostView where
  x := s.x
  zf := s.zf
  pc := s.pc
  status := s.statusWord
  cause := s.causeWord
  faultPc := s.faultPc
  faultInfo := s.faultInfo
  icount := s.icount

end Sys2Proof.Machine
end

