-- ==== Sys2Proof/Machine/Flags.lean ====
section
/-!
DEFINITION. The zero flag (R24 to R29): its one computation, and the two ways an instruction completes with a result.
-/

namespace Sys2Proof.Machine

/-- The zero flag of a written value (R25). -/
def zeroFlag (v : Word) : Bool := v == 0#64

/-- Completion of the eight instructions that write the flag: `x[rd] <- v`, `zf <- (v == 0)`, `pc <- pc + 1` (R25). -/
def State.writeFlagged (s : State) (rd : Reg) (v : Word) : State := ((s.setReg rd v).setZf (zeroFlag v)).nextPc

/-- Completion of the instructions that write a register and keep the flag: `x[rd] <- v`, `pc <- pc + 1` (R26). -/
def State.writePlain (s : State) (rd : Reg) (v : Word) : State := (s.setReg rd v).nextPc

end Sys2Proof.Machine
end

