-- ==== Sys2Proof/Machine/Arith.lean ====
section
/-!
DEFINITION. The meanings of add, sub, inc and dec (42_arith.md): unsigned arithmetic modulo 2^64 (R140).
-/

namespace Sys2Proof.Machine

/-- add (R141). -/
def execAdd (rd rs1 rs2 : Reg) (s : State) : Host.Outcome State Fault Refusal := .next (s.writeFlagged rd (s.reg rs1 + s.reg rs2))

/-- sub (R142). -/
def execSub (rd rs1 rs2 : Reg) (s : State) : Host.Outcome State Fault Refusal := .next (s.writeFlagged rd (s.reg rs1 - s.reg rs2))

/-- inc (R143). -/
def execInc (rd : Reg) (s : State) : Host.Outcome State Fault Refusal := .next (s.writeFlagged rd (s.reg rd + 1#64))

/-- dec (R144). -/
def execDec (rd : Reg) (s : State) : Host.Outcome State Fault Refusal := .next (s.writeFlagged rd (s.reg rd - 1#64))

end Sys2Proof.Machine
end

