-- ==== Sys2Proof/Machine/Operands.lean ====
section
/-!
DEFINITION. The operand forms: the shifter (R160) and the jump-target resolver (R170). A register operand is State.reg.
-/

namespace Sys2Proof.Machine

/-- The direction of a shift (R160). -/
inductive ShiftDir where
  | left | right
deriving DecidableEq, Repr

/-- `shiftres` (R160): zero fill in both directions; an amount of 64 or more (`ov`) follows SHIFT_POLICY (R9). -/
def shiftResult (policy : ShiftPolicy) (dir : ShiftDir) (v : Word) (ov : Bool) (sh : Nat) : Word :=
  match ov, policy, dir with
  | true, .zero, _ => 0#64
  | _, _, .left => v <<< sh
  | _, _, .right => v >>> sh

/-- The target of a label identifier, where its entry is valid (R170). -/
def State.resolve (s : State) (lid : Nat) : Option Nat :=
  let e := s.ltRead lid
  if e.valid then some e.target else none

/-- A jump: the label is resolved whether or not the jump is taken, and a label without a valid entry raises UNKNOWN_LABEL with
the identifier, zero-extended, as information (R171 to R173, R200, R204). -/
def State.jumpIf (s : State) (taken : Bool) (lid : Nat) : State :=
  match s.resolve lid with
  | none => s.raise .unknownLabel (BitVec.ofNat 32 lid)
  | some t => if taken then s.jumpTo t else s.nextPc

end Sys2Proof.Machine
end

