-- ==== Sys2Proof/Machine/Jump.lean ====
section
/-!
DEFINITION. The meanings of jz, jnz and j (45_jump.md).
-/

namespace Sys2Proof.Machine

/-- jz (R171). -/
def execJz (lid : Nat) (s : State) : Host.Outcome State Fault Refusal := .next (s.jumpIf s.zf lid)

/-- jnz (R172). -/
def execJnz (lid : Nat) (s : State) : Host.Outcome State Fault Refusal := .next (s.jumpIf (!s.zf) lid)

/-- j (R173). -/
def execJ (lid : Nat) (s : State) : Host.Outcome State Fault Refusal := .next (s.jumpIf true lid)

end Sys2Proof.Machine
end

