-- ==== Sys2Proof/Machine/Logic.lean ====
section
/-!
DEFINITION. The meanings of and, or, xor and not (43_logic.md).
-/

namespace Sys2Proof.Machine

/-- and (R150). -/
def execAnd (rd rs1 rs2 : Reg) (s : State) : Host.Outcome State Fault Refusal := .next (s.writeFlagged rd (s.reg rs1 &&& s.reg rs2))

/-- or (R151). -/
def execOr (rd rs1 rs2 : Reg) (s : State) : Host.Outcome State Fault Refusal := .next (s.writeFlagged rd (s.reg rs1 ||| s.reg rs2))

/-- xor (R152). -/
def execXor (rd rs1 rs2 : Reg) (s : State) : Host.Outcome State Fault Refusal := .next (s.writeFlagged rd (s.reg rs1 ^^^ s.reg rs2))

/-- not (R153). -/
def execNot (rd : Reg) (s : State) : Host.Outcome State Fault Refusal := .next (s.writeFlagged rd (~~~ s.reg rd))

end Sys2Proof.Machine
end

