-- ==== Sys2Proof/Machine/Move.lean ====
section
/-!
DEFINITION. The meanings of zero and mov (41_move.md).
-/

namespace Sys2Proof.Machine

/-- zero (R130). -/
def execZero (rd : Reg) (s : State) : Host.Outcome State Fault Refusal := .next (s.writePlain rd 0#64)

/-- mov (R131). -/
def execMov (rd rs1 : Reg) (s : State) : Host.Outcome State Fault Refusal := .next (s.writePlain rd (s.reg rs1))

end Sys2Proof.Machine
end

