-- ==== Sys2Proof/Machine/Shift.lean ====
section
/-!
DEFINITION. The meanings of shl and shr (44_shift.md).
-/

namespace Sys2Proof.Machine

/-- shl (R161). -/
def execShl (rd : Reg) (ov : Bool) (sh : Nat) (s : State) : Host.Outcome State Fault Refusal :=
  .next (s.writePlain rd (shiftResult s.cfg.shiftPolicy .left (s.reg rd) ov sh))

/-- shr (R162). -/
def execShr (rd : Reg) (ov : Bool) (sh : Nat) (s : State) : Host.Outcome State Fault Refusal :=
  .next (s.writePlain rd (shiftResult s.cfg.shiftPolicy .right (s.reg rd) ov sh))

end Sys2Proof.Machine
end

