-- ==== Sys2Proof/Machine/System.lean ====
section
/-!
DEFINITION. The meanings of noop and debug (40_system.md).
-/

namespace Sys2Proof.Machine

/-- noop (R120). -/
def execNoop (s : State) : Host.Outcome State Fault Refusal := .next s.nextPc

/-- debug (R121): the block waits for the host's RESUME or INPUT_FAIL (R122, R123), which the host port carries out. -/
def execDebug (s : State) : Host.Outcome State Fault Refusal := .next s.awaitHost

end Sys2Proof.Machine
end

