-- ==== Sys2Proof/Machine/Dispatch.lean ====
section
/-!
DEFINITION. exec: one arm per constructor of Instr, each a direct call of the instruction's meaning.
-/

namespace Sys2Proof.Machine

/-- The meaning of an instruction, run inside a step after fetch and decode have succeeded (R34). -/
def exec (i : Instr) (s : State) : Host.Outcome State Fault Refusal :=
  match i with
  | .noop => Sys2Proof.Machine.execNoop s
  | .debug => Sys2Proof.Machine.execDebug s
  | .zero rd => Sys2Proof.Machine.execZero rd s
  | .mov rd rs1 => Sys2Proof.Machine.execMov rd rs1 s
  | .add rd rs1 rs2 => Sys2Proof.Machine.execAdd rd rs1 rs2 s
  | .sub rd rs1 rs2 => Sys2Proof.Machine.execSub rd rs1 rs2 s
  | .inc rd => Sys2Proof.Machine.execInc rd s
  | .dec rd => Sys2Proof.Machine.execDec rd s
  | .and rd rs1 rs2 => Sys2Proof.Machine.execAnd rd rs1 rs2 s
  | .or rd rs1 rs2 => Sys2Proof.Machine.execOr rd rs1 rs2 s
  | .xor rd rs1 rs2 => Sys2Proof.Machine.execXor rd rs1 rs2 s
  | .not rd => Sys2Proof.Machine.execNot rd s
  | .shl rd ov sh => Sys2Proof.Machine.execShl rd ov sh s
  | .shr rd ov sh => Sys2Proof.Machine.execShr rd ov sh s
  | .jz lid => Sys2Proof.Machine.execJz lid s
  | .jnz lid => Sys2Proof.Machine.execJnz lid s
  | .j lid => Sys2Proof.Machine.execJ lid s

end Sys2Proof.Machine
end

