-- ==== Sys2Proof/Machine/Cycle.lean ====
section
/-!
DEFINITION. The instruction cycle (R34, R207) and what the block does by itself in each run state (R40, R216).
-/

namespace Sys2Proof.Machine

/-- Fetch, decode and execute (R34), at a `pc` below N; an illegal word raises ILLEGAL_INSTRUCTION with the word (R203). -/
def fetchDecodeExecute (s : State) : Host.Outcome State Fault Refusal :=
  match decode (s.ifetch s.pc) with
  | .ok i => exec i s
  | .error _ => .next (s.raise .illegalInstruction (s.ifetch s.pc))

/-- One step of the instruction cycle, with its checks in the order of R207. -/
def cycle (s : State) : Host.Outcome State Fault Refusal :=
  if s.pc = s.icount then .next s.halt
  else if s.icount < s.pc then .next (s.raise .pcRange 0#32)
  else fetchDecodeExecute s

/-- What the block does by itself: in RUN a step of the cycle; in every other run state nothing, because only a transaction of
the host leaves it (R40, R121, R216). The wait is a next state equal to the state: notes/assumptions/11.md. -/
def blockStep (s : State) : Host.Outcome State Fault Refusal :=
  match s.run with
  | .run => cycle s
  | .idle | .debugWait | .halted | .faulted => .next s

end Sys2Proof.Machine
end

