-- ==== Sys2Proof/Machine/HostPort.lean ====
section
/-!
DEFINITION. The host interface (R45, R46): the run states that allow each transaction, the arguments it admits, its effect, and the order of the host's moves and the block's steps.
-/

namespace Sys2Proof.Machine

/-- The run states in which a transaction is allowed (R45). -/
def HostTx.allowedIn : HostTx → RunState → Bool
  | .reset, _ => true
  | .loadImem _ _, r => r = .idle
  | .loadLt _ _, r => r = .idle
  | .setIcount _, r => r = .idle
  | .preload _ _, r => r = .idle
  | .start, r => r = .idle
  | .resume, r => r = .debugWait
  | .inputFail, r => r = .debugWait
  | .read, r => r = .idle || r = .debugWait || r = .halted || r = .faulted

/-- The reason why a transaction is none of R45's, where an argument lies outside what R45 admits. -/
def HostTx.outside (c : Params) : HostTx → Option Fault
  | .loadImem i _ => if i < Params.imemWords c then none else some .imemIndexOutside
  | .loadLt lid t =>
    if Config.lidCount ≤ lid then some .labelIdOutside
    else if t < 2 ^ c.pcWidth then none else some .labelTargetTooWide
  | .setIcount n => if n ≤ 2 ^ c.pcWidth - 1 then none else some .icountTooWide
  | .reset | .preload _ _ | .start | .resume | .inputFail | .read => none

/-- The effect of a transaction in a run state that allows it (R45). -/
def State.applyTx (s : State) : HostTx → State
  | .reset => s.resetBlock
  | .loadImem i w => s.loadWord i w
  | .loadLt lid t => s.loadLabel lid t
  | .setIcount n => { s with icount := n }
  | .preload r v => s.setReg r v
  | .start => s.startRun
  | .resume => s.resumeRun
  | .inputFail => s.raise .debugInputFailure 0#32
  | .read => { s with reply := some s.view }

/-- A transaction reaches the block: one that R45 does not list stops the model by name (notes/assumptions/8.md), one issued
outside its allowed states has no effect (R45; notes/assumptions/7.md), any other has its effect. -/
def transact (tx : HostTx) (s : State) : Host.Outcome State Fault Refusal :=
  match HostTx.outside s.cfg tx with
  | some f => .fault f
  | none => if HostTx.allowedIn tx s.run then .next (s.applyTx tx) else .next s

/-- One step of the whole: the host's next move lands, or, where the host is quiet, the block steps (R45, R62). -/
def advance (s : State) : Host.Outcome State Fault Refusal :=
  match s.host with
  | [] => blockStep s
  | .quiet :: rest => blockStep { s with host := rest }
  | .issue tx :: rest => transact tx { s with host := rest }

/-- The state in which the very next step runs the word given: it stands at `pc`, `pc` lies below N, the run state is RUN and
no move of the host comes first. This stands for the host's loading and START (R234). -/
def State.placeWord (s : State) (w : IWord) : State :=
  { s.loadWord s.pc w with icount := max s.icount (s.pc + 1), run := .run, host := [] }

end Sys2Proof.Machine
end

