-- ==== Sys2Proof/Machine/Step.lean ====
section
/-!
DEFINITION. One step of the machine, and the placing of an instruction where the next step fetches it.
-/

namespace Sys2Proof.Machine

/-- One step: a move of the host, or a step of the block (Machine/HostPort.lean, Machine/Cycle.lean). -/
def step (s : State) : Host.Outcome State Fault Refusal := advance s

/-- `s` with a table word stored where `step` fetches its next instruction, and the block in RUN there. -/
def State.withFetchWord (s : State) (nbits w : Nat) : State := s.placeWord (tableWord nbits w)

end Sys2Proof.Machine
end

