-- ==== Sys2Proof/Machine/Assembler.lean ====
section
/-!
DEFINITION. The assembler (30_encoding.md Part B, R90 to R110): from source lines to instruction words and the label-table image. A line is a list of characters without its line end (R5, R90).
-/

namespace Sys2Proof.Machine

/-- The fatal parse errors (R106). -/
inductive AsmError where
  | garbageInstruction   -- R101
  | operandCount         -- R100
  | badRegister          -- R97
  | badImmediate         -- R98
deriving DecidableEq, Repr

/-- The spellings the spec's transcriber refuses (R110); a program that holds one has no meaning. -/
inductive AsmRefusal where
  | plusSign            -- digits with a `+` before them
  | nonAscii            -- a character outside ASCII before the comment marker
  | labelLineForm       -- a label line that is not `<name>:` alone
  | emptyOperand        -- an empty item of an operand list
  | tooManyLabels       -- more than 2^24 distinct label names
deriving DecidableEq, Repr

/-- Why the assembler stops, at the first line that stops it (R90, R106). -/
inductive AsmStop where
  | error (why : AsmError)
  | refused (why : AsmRefusal)
deriving DecidableEq, Repr

/-- A stop and the 1-based source line it names (R106, R110). -/
structure AsmFailure where
  line : Nat
  stop : AsmStop
deriving DecidableEq, Repr

/-- The assembler's output (R90): the instruction words, and for each declared label its identifier and its target (R104). -/
structure Program where
  words  : List IWord
  labels : List (Nat × Nat)
deriving DecidableEq, Repr

/-- The known mnemonics (R96). There is no `noop` mnemonic. -/
inductive Mnemonic where
  | debug | zero | mov | add | sub | inc | dec | and | or | xor | not | shl | shr | jz | jnz | j
deriving DecidableEq, Repr

/-- The three jumps, whose word needs the identifier of their label (R99, R105). -/
inductive JumpKind where
  | jz | jnz | j
deriving DecidableEq, Repr

/-- What one line says. -/
inductive ParsedLine where
  | plain (i : Instr)
  | declare (name : List Char)
  | jump (k : JumpKind) (name : List Char)
deriving DecidableEq, Repr

/-- The whitespace of R93: space, tab, LF, VT, FF and CR (R110, G1). -/
def isSpace (c : Char) : Bool := c.toNat = 32 || (9 ≤ c.toNat && c.toNat ≤ 13)

/-- A decimal digit. -/
def isDigit (c : Char) : Bool := 48 ≤ c.toNat && c.toNat ≤ 57

/-- Lower case (R91), of the letters of ASCII; other characters are refused where they count (R110). -/
def lowerChar (c : Char) : Char := if 65 ≤ c.toNat && c.toNat ≤ 90 then Char.ofNat (c.toNat + 32) else c

/-- A line cut at the first occurrence of a character (R92). -/
def cutAtChar (m : Char) : List Char → List Char
  | [] => []
  | c :: cs => if c = m then [] else c :: cutAtChar m cs

/-- A line cut at the first occurrence of `//` (R92). -/
def cutAtSlashes : List Char → List Char
  | [] => []
  | [c] => [c]
  | c :: d :: cs => if c = '/' ∧ d = '/' then [] else c :: cutAtSlashes (d :: cs)

/-- The line without its comment: cut at `//`, then at `;`, then at `#` (R92). -/
def stripComment (line : List Char) : List Char := cutAtChar '#' (cutAtChar ';' (cutAtSlashes line))

/-- The pieces between the characters that satisfy `p`, empty pieces included. -/
def pieces (p : Char → Bool) : List Char → List (List Char)
  | [] => [[]]
  | c :: cs =>
    if p c then [] :: pieces p cs
    else match pieces p cs with
      | [] => [[c]]
      | piece :: rest => (c :: piece) :: rest

/-- The tokens of a line: its maximal runs of other characters than whitespace (R93). -/
def tokens (line : List Char) : List (List Char) := (pieces isSpace line).filter (fun t => !t.isEmpty)

/-- The mnemonics of R96, spelled in lower case (R91). -/
def mnemonicOf : List Char → Option Mnemonic
  | ['d', 'e', 'b', 'u', 'g'] => some .debug
  | ['z', 'e', 'r', 'o'] => some .zero
  | ['m', 'o', 'v'] => some .mov
  | ['a', 'd', 'd'] => some .add
  | ['s', 'u', 'b'] => some .sub
  | ['i', 'n', 'c'] => some .inc
  | ['d', 'e', 'c'] => some .dec
  | ['a', 'n', 'd'] => some .and
  | ['o', 'r'] => some .or
  | ['x', 'o', 'r'] => some .xor
  | ['n', 'o', 't'] => some .not
  | ['s', 'h', 'l'] => some .shl
  | ['s', 'h', 'r'] => some .shr
  | ['j', 'z'] => some .jz
  | ['j', 'n', 'z'] => some .jnz
  | ['j'] => some .j
  | _ => none

/-- The number that digits spell after the digits already read, or none where a character is no digit. -/
def decimalFrom (n : Nat) : List Char → Option Nat
  | [] => some n
  | c :: cs => if isDigit c then decimalFrom (10 * n + (c.toNat - 48)) cs else none

/-- An unsigned decimal number: at least one digit, leading zeros allowed (R97, R98, NS12). -/
def decimal : List Char → Option Nat
  | [] => none
  | cs => decimalFrom 0 cs

/-- Digits with a `+` before them (R110). -/
def plusNumber : List Char → Bool
  | '+' :: cs => (decimal cs).isSome
  | _ => false

/-- A register operand `r<N>` with `N < 8` (R97). -/
def parseReg : List Char → Except AsmStop Reg
  | 'r' :: cs =>
    if plusNumber cs then .error (.refused .plusSign)
    else match decimal cs with
      | some n => if n < 8 then .ok (Fin.ofNat 8 n) else .error (.error .badRegister)
      | none => .error (.error .badRegister)
  | _ => .error (.error .badRegister)

/-- An immediate operand: an unsigned 64-bit integer in decimal (R98). -/
def parseImm (cs : List Char) : Except AsmStop Nat :=
  if plusNumber cs then .error (.refused .plusSign)
  else match decimal cs with
    | some n => if n < 2 ^ 64 then .ok n else .error (.error .badImmediate)
    | none => .error (.error .badImmediate)

/-- The operand list: the tokens after the first, joined and split again at commas (R94); an empty item is refused (R110). A
mnemonic alone on its line has no operands (D24). -/
def operandList (rest : List (List Char)) : Except AsmStop (List (List Char)) :=
  let joined := rest.flatten
  if joined.isEmpty then .ok []
  else
    let items := pieces (fun c => c = ',') joined
    if items.any List.isEmpty then .error (.refused .emptyOperand) else .ok items

/-- The next operand and the ones after it; an absent one is an error (R100). -/
def nextOperand : List (List Char) → Except AsmStop (List Char × List (List Char))
  | [] => .error (.error .operandCount)
  | a :: rest => .ok (a, rest)

/-- The next operand, which must be a register (R97). -/
def nextReg (items : List (List Char)) : Except AsmStop (Reg × List (List Char)) := do
  let (a, rest) ← nextOperand items
  let r ← parseReg a
  return (r, rest)

/-- The line says `p`, where no operand is left over (R100). -/
def endOperands (p : ParsedLine) : List (List Char) → Except AsmStop ParsedLine
  | [] => .ok p
  | _ :: _ => .error (.error .operandCount)

/-- One register operand. -/
def oneReg (f : Reg → Instr) (items : List (List Char)) : Except AsmStop ParsedLine := do
  let (rd, rest) ← nextReg items
  endOperands (.plain (f rd)) rest

/-- Two register operands: `to`, `from`. -/
def twoRegs (f : Reg → Reg → Instr) (items : List (List Char)) : Except AsmStop ParsedLine := do
  let (rd, rest) ← nextReg items
  let (rs1, rest) ← nextReg rest
  endOperands (.plain (f rd rs1)) rest

/-- Three register operands: `to`, `op1`, `op2`. -/
def threeRegs (f : Reg → Reg → Reg → Instr) (items : List (List Char)) : Except AsmStop ParsedLine := do
  let (rd, rest) ← nextReg items
  let (rs1, rest) ← nextReg rest
  let (rs2, rest) ← nextReg rest
  endOperands (.plain (f rd rs1 rs2)) rest

/-- A shift: its amount is kept as `ov` (64 or more) and `sh` (modulo 64) (R75, R105). -/
def shiftLine (f : Reg → Bool → Nat → Instr) (items : List (List Char)) : Except AsmStop ParsedLine := do
  let (rd, rest) ← nextReg items
  let (b, rest) ← nextOperand rest
  let amount ← parseImm b
  endOperands (.plain (f rd (decide (64 ≤ amount)) (amount % 64))) rest

/-- A jump: its operand is the label's name (R99). -/
def jumpLine (k : JumpKind) (items : List (List Char)) : Except AsmStop ParsedLine := do
  let (name, rest) ← nextOperand items
  endOperands (.jump k name) rest

/-- The operands each mnemonic takes, read in their order (R96). -/
def buildLine : Mnemonic → List (List Char) → Except AsmStop ParsedLine
  | .debug => endOperands (.plain .debug)
  | .zero => oneReg .zero
  | .mov => twoRegs .mov
  | .add => threeRegs .add
  | .sub => threeRegs .sub
  | .inc => oneReg .inc
  | .dec => oneReg .dec
  | .and => threeRegs .and
  | .or => threeRegs .or
  | .xor => threeRegs .xor
  | .not => oneReg .not
  | .shl => shiftLine .shl
  | .shr => shiftLine .shr
  | .jz => jumpLine .jz
  | .jnz => jumpLine .jnz
  | .j => jumpLine .j

/-- A label's name holds no whitespace, `:` or `,` and is not empty (R110). Its token holds no whitespace already. -/
def labelName (name : List Char) : Bool := !name.isEmpty && name.all (fun c => c != ':' && c != ',')

/-- A line whose first token is no mnemonic: a label declaration `<name>:` (R101), refused in any other form with a colon (R110),
garbage without one. -/
def labelLine (line : List Char) : Except AsmStop ParsedLine :=
  if line.all (fun c => c != ':') then .error (.error .garbageInstruction)
  else match tokens line with
    | [t] =>
      if t.getLast? = some ':' && labelName t.dropLast then .ok (.declare t.dropLast)
      else .error (.refused .labelLineForm)
    | _ => .error (.refused .labelLineForm)

/-- Steps 1 to 7 of the parser for one line (R91 to R101). -/
def parseLine (raw : List Char) : Except AsmStop ParsedLine :=
  let line := stripComment (raw.map lowerChar)
  if line.any (fun c => 128 ≤ c.toNat) then .error (.refused .nonAscii)
  else match tokens line with
    | [] => .ok (.plain .noop)
    | first :: rest =>
      match mnemonicOf first with
      | some m => do
        let items ← operandList rest
        buildLine m items
      | none => labelLine line

/-- The instruction of a jump to an identifier (R105). -/
def JumpKind.instr : JumpKind → Nat → Instr
  | .jz, lid => .jz lid
  | .jnz, lid => .jnz lid
  | .j, lid => .j lid

/-- The names seen so far with one more; a name's identifier is its place in the order of first occurrence (R103). -/
def seeName (names : List (List Char)) (name : List Char) : List (List Char) :=
  if name ∈ names then names else names ++ [name]

/-- What one line adds: its word, the names seen, and the label-table image (R101 to R105). -/
def assembleLine (i : Nat) (names : List (List Char)) (labels : List (Nat × Nat)) :
    ParsedLine → IWord × List (List Char) × List (Nat × Nat)
  | .plain ins => (encode ins, names, labels)
  | .declare name =>
    let names' := seeName names name
    (encode .noop, names', Cells.write labels (names'.idxOf name) i)
  | .jump k name =>
    let names' := seeName names name
    (encode (k.instr (names'.idxOf name)), names', labels)

/-- The one pass (R90): line `i` onwards, with the names seen and the labels declared so far; it stops at the first failure. -/
def assembleFrom (i : Nat) (names : List (List Char)) (labels : List (Nat × Nat)) :
    List (List Char) → Except AsmFailure Program
  | [] => .ok { words := [], labels := labels }
  | raw :: rest =>
    match parseLine raw with
    | .error stop => .error { line := i + 1, stop := stop }
    | .ok parsed =>
      let (w, names', labels') := assembleLine i names labels parsed
      if Config.lidCount < names'.length then .error { line := i + 1, stop := .refused .tooManyLabels }
      else match assembleFrom (i + 1) names' labels' rest with
        | .error f => .error f
        | .ok p => .ok { p with words := w :: p.words }

/-- The assembler (R90): source lines to a program, or the first failure. -/
def assemble (lines : List (List Char)) : Except AsmFailure Program := assembleFrom 0 [] [] lines

end Sys2Proof.Machine
end

