-- ==== Sys2Proof/Machine/Boot.lean ====
section
/-!
DEFINITION. How a program comes to run from reset: register preloads (R233) and the transactions of the boot order (R234).
-/

namespace Sys2Proof.Machine

/-- The 64-bit pattern of an override value: an unsigned 64-bit integer as it is, a negative signed one plus 2^64 (R233). -/
def overrideWord (value : Int) : Option Word :=
  if -(2 ^ 63) ≤ value ∧ value < 2 ^ 64 then some (BitVec.ofInt 64 value) else none

/-- The register preloads of a launch; a value out of range is fatal, and so are two overrides of one register (R233, D29). -/
def preloadsOf : List (Reg × Int) → Option (List (Reg × Word))
  | [] => some []
  | (r, value) :: rest =>
    match overrideWord value, preloadsOf rest with
    | some v, some ps => if ps.any (fun p => p.1 = r) then none else some ((r, v) :: ps)
    | _, _ => none

/-- LOAD_IMEM of the words from an index on. -/
def loadWordsFrom : Nat → List IWord → List HostTx
  | _, [] => []
  | i, w :: rest => .loadImem i w :: loadWordsFrom (i + 1) rest

/-- What the host does before START and START itself, in the order R234 lists it. -/
def bootTxs (p : Program) (preloads : List (Reg × Word)) : List HostTx :=
  .setIcount p.words.length ::
    (loadWordsFrom 0 p.words ++ p.labels.map (fun l => .loadLt l.1 l.2) ++ preloads.map (fun r => .preload r.1 r.2) ++ [.start])

/-- The host's moves that launch a program: the boot transactions, and then quiet (R234). -/
def bootMoves (p : Program) (preloads : List (Reg × Word)) : List HostMove :=
  (bootTxs p preloads).map .issue

/-- A launch from text and overrides: none where the overrides or the text are refused, and then no instruction executes (R106,
R210, R233). -/
def launch (lines : List (List Char)) (overrides : List (Reg × Int)) : Option (List HostMove) :=
  match preloadsOf overrides, assemble lines with
  | some ps, .ok p => some (bootMoves p ps)
  | _, _ => none

end Sys2Proof.Machine
end

