-- ==== Sys2Proof/Safety.lean ====
section
/-!
DEFINITION. What counts as a safe run (R217), the loader premises (R235), the invariants of the block, and the frames that statements about instructions use.
-/

namespace Sys2Proof.Machine

/-- The run has ended normally (R217). -/
def EndsNormally (s : State) : Prop := s.run = .halted

/-- The run has ended in fault, never a normal end (R217). -/
def EndsInFault (s : State) : Prop := s.run = .faulted

/-- The state after `k` steps, where none of them stops the model. -/
def stepsTo (k : Nat) (s t : State) : Prop := Host.Core.run Sys2Proof.core k s = .next t

/-- Both memories are in their canonical form. -/
def Canonical (s : State) : Prop := Memory.wf s.imem = true ∧ LabelTable.wf s.lt = true

/-- The loader premises P1 to P3 (R235), with N the instruction count. -/
def LoaderPremises (s : State) : Prop :=
  s.icount ≤ 2 ^ s.cfg.pcWidth - 1 ∧
  (∀ i, i < s.icount → s.loaded i = true) ∧
  (∀ lid, (s.ltRead lid).valid = true → (s.ltRead lid).target < s.icount)

/-- Every field that the spec gives PC_WIDTH bits fits them, PC_WIDTH is at least 1, and nothing is listed outside the two address
spaces (R10, R41, R51, R55). -/
def FitsWidth (s : State) : Prop :=
  1 ≤ s.cfg.pcWidth ∧ s.pc < 2 ^ s.cfg.pcWidth ∧ s.icount ≤ 2 ^ s.cfg.pcWidth - 1 ∧ s.faultPc < 2 ^ s.cfg.pcWidth ∧
  (∀ lid, (s.ltRead lid).target < 2 ^ s.cfg.pcWidth) ∧
  (∀ c, c ∈ s.imem → c.1 < 4 * (2 ^ s.cfg.pcWidth - 1)) ∧ (∀ c, c ∈ s.lt → c.1 < 2 ^ 24)

/-- What each run state says of the other registers: before START the program counter and the flag are as RESET left them (R28,
R37, R45), a waiting block stands at its `debug` below N (R121), a halted one at N (R35), and the fault record is written exactly
where the block is FAULTED, with the frozen program counter in it (R201). -/
def RunStateConsistent (s : State) : Prop :=
  (s.run = .idle → s.pc = 0 ∧ s.zf = false) ∧
  (s.run = .debugWait → s.pc < s.icount) ∧
  (s.run = .halted → s.pc = s.icount) ∧
  (s.run = .faulted → s.cause ≠ .none ∧ s.faultPc = s.pc) ∧
  (s.run ≠ .faulted → s.cause = .none ∧ s.faultPc = 0 ∧ s.faultInfo = 0#32)

/-- A started run within the loader premises: `pc` never leaves `0..N` (R33), and no PC_RANGE has been recorded (R205). -/
def WithinProgram (s : State) : Prop :=
  s.run ≠ .idle ∧ LoaderPremises s ∧ s.pc ≤ s.icount ∧ (s.run = .debugWait → s.pc < s.icount) ∧ s.cause ≠ .pcRange

/-- Every word of the program is legal: what P4 adds to P1 to P3 (R109, R235). -/
def LegalProgram (s : State) : Prop := ∀ i, i < s.icount → ∃ ins, decode (s.ifetch i) = .ok ins

/-- The host is quiet at the next step, and its moves after that are `rest`. -/
def QuietThen (s : State) (rest : List HostMove) : Prop := s.host = .quiet :: rest ∨ (s.host = [] ∧ rest = [])

/-- The host's next move is a transaction. -/
def HostIssues (s : State) (tx : HostTx) : Prop := ∃ rest, s.host = .issue tx :: rest

/-- A transaction whose arguments R45 admits, on a block with the parameters given. -/
def TxListed (c : Params) : HostTx → Prop
  | .loadImem i _ => i < 2 ^ c.pcWidth - 1
  | .loadLt lid t => lid < 2 ^ 24 ∧ t < 2 ^ c.pcWidth
  | .setIcount n => n ≤ 2 ^ c.pcWidth - 1
  | .reset | .preload _ _ | .start | .resume | .inputFail | .read => True

/-- The transactions R45 allows in IDLE only. -/
def idleOnly : HostTx → Bool
  | .loadImem _ _ | .loadLt _ _ | .setIcount _ | .preload _ _ | .start => true
  | .reset | .resume | .inputFail | .read => false

/-- The transactions R45 allows in DEBUG_WAIT only. -/
def waitOnly : HostTx → Bool
  | .resume | .inputFail => true
  | .reset | .loadImem _ _ | .loadLt _ _ | .setIcount _ | .preload _ _ | .start | .read => false

/-- The reset table (R230). -/
def HasResetValues (s : State) : Prop :=
  (∀ r, s.reg r = 0#64) ∧ s.zf = false ∧ s.pc = 0 ∧ s.run = .idle ∧ s.statusWord = 0#32 ∧ s.causeWord = 0#32 ∧
  s.faultPc = 0 ∧ s.faultInfo = 0#32 ∧ s.icount = 0 ∧ (∀ lid, s.ltRead lid = { valid := false, target := 0 }) ∧
  (∀ i, s.loaded i = false)

/-- The parts of the state that no instruction writes: ICOUNT, both memories (every byte and every entry), the parameters, and the
model's own fields (R41, R54, R57). -/
def SameProgram (s t : State) : Prop :=
  t.icount = s.icount ∧ t.imem = s.imem ∧ (∀ a, t.imemByte a = s.imemByte a) ∧ t.lt = s.lt ∧
  (∀ lid, t.ltRead lid = s.ltRead lid) ∧ t.cfg = s.cfg ∧ t.epoch = s.epoch ∧ t.host = s.host ∧ t.reply = s.reply

/-- The fault record and the parts that no instruction writes are unchanged. -/
def SameControl (s t : State) : Prop :=
  t.cause = s.cause ∧ t.faultPc = s.faultPc ∧ t.faultInfo = s.faultInfo ∧ SameProgram s t

/-- An instruction other than `debug` that completes without a fault: the run state too is unchanged. -/
def SameButRegisters (s t : State) : Prop := t.run = s.run ∧ SameControl s t

/-- Every register but one is unchanged. -/
def SameRegsBut (rd : Reg) (s t : State) : Prop := ∀ r, r ≠ rd → t.reg r = s.reg r

/-- Every register is unchanged. -/
def SameRegs (s t : State) : Prop := ∀ r, t.reg r = s.reg r

/-- All of the block, and the parameters, are unchanged; only the host's own fields may differ. -/
def BlockUnchanged (s t : State) : Prop :=
  t.x = s.x ∧ t.zf = s.zf ∧ t.pc = s.pc ∧ t.run = s.run ∧ t.cause = s.cause ∧ t.faultPc = s.faultPc ∧
  t.faultInfo = s.faultInfo ∧ t.icount = s.icount ∧ t.imem = s.imem ∧ t.lt = s.lt ∧ t.cfg = s.cfg ∧ t.epoch = s.epoch

/-- The instruction completes by writing a value to a register and the zero flag of that value, and changes nothing else but
`pc` (R25, R32). -/
def CompletesFlagged (s t : State) (rd : Reg) (v : Nat) : Prop :=
  (t.reg rd).toNat = v ∧ (t.zf = true ↔ v = 0) ∧ SameRegsBut rd s t ∧ t.pc = s.pc + 1 ∧ SameButRegisters s t

/-- The instruction completes by writing a value to a register, and changes nothing else but `pc` (R26, R32). -/
def CompletesPlain (s t : State) (rd : Reg) (v : Nat) : Prop :=
  (t.reg rd).toNat = v ∧ t.zf = s.zf ∧ SameRegsBut rd s t ∧ t.pc = s.pc + 1 ∧ SameButRegisters s t

/-- The instruction sets `pc` and changes nothing else. -/
def CompletesJump (s t : State) (target : Nat) : Prop :=
  t.pc = target ∧ SameRegs s t ∧ t.zf = s.zf ∧ SameButRegisters s t

/-- Fault entry at the instruction that `pc` indexes (R201): the record, and everything else unchanged. -/
def FaultRecorded (s t : State) (c : Cause) (info : Nat) : Prop :=
  t.run = .faulted ∧ t.cause = c ∧ t.faultPc = s.pc ∧ t.faultInfo.toNat = info ∧
  SameRegs s t ∧ t.zf = s.zf ∧ t.pc = s.pc ∧ SameProgram s t

/-- The encoder gives the word, and the decoder reads the instruction from it. -/
def EncodedAs (i : Instr) (w : Nat) : Prop := encode i = BitVec.ofNat 32 w ∧ decode (BitVec.ofNat 32 w) = .ok i

/-- The eight instructions that write the zero flag (R25). -/
def writesZeroFlag : Instr → Bool
  | .add _ _ _ | .sub _ _ _ | .inc _ | .dec _ | .and _ _ _ | .or _ _ _ | .xor _ _ _ | .not _ => true
  | .noop | .debug | .zero _ | .mov _ _ | .shl _ _ _ | .shr _ _ _ | .jz _ | .jnz _ | .j _ => false

/-- The register an instruction writes, where it writes one (R21). -/
def destination : Instr → Option Reg
  | .zero rd | .inc rd | .dec rd | .not rd => some rd
  | .mov rd _ => some rd
  | .add rd _ _ | .sub rd _ _ | .and rd _ _ | .or rd _ _ | .xor rd _ _ => some rd
  | .shl rd _ _ | .shr rd _ _ => some rd
  | .noop | .debug | .jz _ | .jnz _ | .j _ => none

end Sys2Proof.Machine
end

