-- ==== Sys2Proof/Certificates/Slice0/Obligations.lean ====
section
/-!
DEFINITION. The statements about the execution block that the provers are asked to settle; OBLIGATIONS.json says of each which rule or section of the spec it formalises.
-/

open Sys2Proof Sys2Proof.Machine

/-! ### The seventeen instructions: encoding, result, frame -/

/-- R120: the word, `pc + 1`, and nothing else. -/
def Obligations.NoopOnlyAdvancesPc : Prop :=
  EncodedAs .noop 0x00000000 ∧ ∀ s, ∃ t, exec .noop s = .next t ∧ CompletesJump s t (s.pc + 1)

/-- R121: the word, and the wait with everything else unchanged; `pc` still indexes the `debug`. -/
def Obligations.DebugWaitsWithAllElseUnchanged : Prop :=
  EncodedAs .debug 0x08000000 ∧
  ∀ s, ∃ t, exec .debug s = .next t ∧ t.run = .debugWait ∧ t.pc = s.pc ∧ SameRegs s t ∧ t.zf = s.zf ∧ SameControl s t

/-- R130. -/
def Obligations.ZeroClearsWithoutTheFlag : Prop :=
  ∀ (rd : Reg) s, EncodedAs (.zero rd) (0x10000000 + rd.val * 2 ^ 24) ∧
    ∃ t, exec (.zero rd) s = .next t ∧ CompletesPlain s t rd 0

/-- R131. -/
def Obligations.MovCopiesWithoutTheFlag : Prop :=
  ∀ (rd rs1 : Reg) s, EncodedAs (.mov rd rs1) (0x18000000 + rd.val * 2 ^ 24 + rs1.val * 2 ^ 21) ∧
    ∃ t, exec (.mov rd rs1) s = .next t ∧ CompletesPlain s t rd (s.reg rs1).toNat

/-- R141. -/
def Obligations.AddWritesWrappedSumAndFlag : Prop :=
  ∀ (rd rs1 rs2 : Reg) s, EncodedAs (.add rd rs1 rs2) (0x20000000 + rd.val * 2 ^ 24 + rs1.val * 2 ^ 21 + rs2.val * 2 ^ 18) ∧
    ∃ t, exec (.add rd rs1 rs2) s = .next t ∧
      CompletesFlagged s t rd (((s.reg rs1).toNat + (s.reg rs2).toNat) % 2 ^ 64)

/-- R142: the exact difference of the integers, reduced modulo 2^64. -/
def Obligations.SubWritesWrappedDifferenceAndFlag : Prop :=
  ∀ (rd rs1 rs2 : Reg) s, EncodedAs (.sub rd rs1 rs2) (0x28000000 + rd.val * 2 ^ 24 + rs1.val * 2 ^ 21 + rs2.val * 2 ^ 18) ∧
    ∃ t, exec (.sub rd rs1 rs2) s = .next t ∧
      CompletesFlagged s t rd ((((s.reg rs1).toNat : Int) - ((s.reg rs2).toNat : Int)) % 2 ^ 64).toNat

/-- R143. -/
def Obligations.IncWritesWrappedIncrementAndFlag : Prop :=
  ∀ (rd : Reg) s, EncodedAs (.inc rd) (0x30000000 + rd.val * 2 ^ 24) ∧
    ∃ t, exec (.inc rd) s = .next t ∧ CompletesFlagged s t rd (((s.reg rd).toNat + 1) % 2 ^ 64)

/-- R144: the exact difference of the integers, reduced modulo 2^64. -/
def Obligations.DecWritesWrappedDecrementAndFlag : Prop :=
  ∀ (rd : Reg) s, EncodedAs (.dec rd) (0x38000000 + rd.val * 2 ^ 24) ∧
    ∃ t, exec (.dec rd) s = .next t ∧ CompletesFlagged s t rd ((((s.reg rd).toNat : Int) - 1) % 2 ^ 64).toNat

/-- R150. -/
def Obligations.AndWritesBitwiseAndFlag : Prop :=
  ∀ (rd rs1 rs2 : Reg) s, EncodedAs (.and rd rs1 rs2) (0x40000000 + rd.val * 2 ^ 24 + rs1.val * 2 ^ 21 + rs2.val * 2 ^ 18) ∧
    ∃ t, exec (.and rd rs1 rs2) s = .next t ∧ CompletesFlagged s t rd ((s.reg rs1).toNat &&& (s.reg rs2).toNat)

/-- R151. -/
def Obligations.OrWritesBitwiseOrAndFlag : Prop :=
  ∀ (rd rs1 rs2 : Reg) s, EncodedAs (.or rd rs1 rs2) (0x48000000 + rd.val * 2 ^ 24 + rs1.val * 2 ^ 21 + rs2.val * 2 ^ 18) ∧
    ∃ t, exec (.or rd rs1 rs2) s = .next t ∧ CompletesFlagged s t rd ((s.reg rs1).toNat ||| (s.reg rs2).toNat)

/-- R152. -/
def Obligations.XorWritesBitwiseXorAndFlag : Prop :=
  ∀ (rd rs1 rs2 : Reg) s, EncodedAs (.xor rd rs1 rs2) (0x50000000 + rd.val * 2 ^ 24 + rs1.val * 2 ^ 21 + rs2.val * 2 ^ 18) ∧
    ∃ t, exec (.xor rd rs1 rs2) s = .next t ∧ CompletesFlagged s t rd ((s.reg rs1).toNat ^^^ (s.reg rs2).toNat)

/-- R153: `x[rd] ^ MAX64`. -/
def Obligations.NotWritesComplementAndFlag : Prop :=
  ∀ (rd : Reg) s, EncodedAs (.not rd) (0x58000000 + rd.val * 2 ^ 24) ∧
    ∃ t, exec (.not rd) s = .next t ∧ CompletesFlagged s t rd ((s.reg rd).toNat ^^^ (2 ^ 64 - 1))

/-- R161, for every pair of shift fields and either SHIFT_POLICY. -/
def Obligations.ShlShiftsLeftUnderThePolicy : Prop :=
  ∀ (rd : Reg) (ov : Bool) (sh : Nat) s, sh < 64 →
    EncodedAs (.shl rd ov sh) (0x60000000 + rd.val * 2 ^ 24 + ov.toNat * 2 ^ 6 + sh) ∧
    ∃ t, exec (.shl rd ov sh) s = .next t ∧
      CompletesPlain s t rd (if s.cfg.shiftPolicy = .zero ∧ ov = true then 0 else (s.reg rd).toNat * 2 ^ sh % 2 ^ 64)

/-- R162, for every pair of shift fields and either SHIFT_POLICY. -/
def Obligations.ShrShiftsRightUnderThePolicy : Prop :=
  ∀ (rd : Reg) (ov : Bool) (sh : Nat) s, sh < 64 →
    EncodedAs (.shr rd ov sh) (0x68000000 + rd.val * 2 ^ 24 + ov.toNat * 2 ^ 6 + sh) ∧
    ∃ t, exec (.shr rd ov sh) s = .next t ∧
      CompletesPlain s t rd (if s.cfg.shiftPolicy = .zero ∧ ov = true then 0 else (s.reg rd).toNat / 2 ^ sh)

/-- R171: with a valid entry the jump is taken exactly when `zf` is set; without one it faults whatever `zf` is. -/
def Obligations.JzResolvesThenJumpsOnZero : Prop :=
  ∀ (lid : Nat) s, lid < 2 ^ 24 → EncodedAs (.jz lid) (0x70000000 + lid) ∧
    ((s.ltRead lid).valid = true → ∃ t, exec (.jz lid) s = .next t ∧
      CompletesJump s t (if s.zf = true then (s.ltRead lid).target else s.pc + 1)) ∧
    ((s.ltRead lid).valid = false → ∃ t, exec (.jz lid) s = .next t ∧ FaultRecorded s t .unknownLabel lid)

/-- R172: with a valid entry the jump is taken exactly when `zf` is clear; without one it faults whatever `zf` is. -/
def Obligations.JnzResolvesThenJumpsOnNonzero : Prop :=
  ∀ (lid : Nat) s, lid < 2 ^ 24 → EncodedAs (.jnz lid) (0x78000000 + lid) ∧
    ((s.ltRead lid).valid = true → ∃ t, exec (.jnz lid) s = .next t ∧
      CompletesJump s t (if s.zf = false then (s.ltRead lid).target else s.pc + 1)) ∧
    ((s.ltRead lid).valid = false → ∃ t, exec (.jnz lid) s = .next t ∧ FaultRecorded s t .unknownLabel lid)

/-- R173: with a valid entry the jump is taken; without one it faults. -/
def Obligations.JResolvesThenJumpsAlways : Prop :=
  ∀ (lid : Nat) s, lid < 2 ^ 24 → EncodedAs (.j lid) (0x80000000 + lid) ∧
    ((s.ltRead lid).valid = true → ∃ t, exec (.j lid) s = .next t ∧ CompletesJump s t (s.ltRead lid).target) ∧
    ((s.ltRead lid).valid = false → ∃ t, exec (.j lid) s = .next t ∧ FaultRecorded s t .unknownLabel lid)

/-! ### Rules over all instructions -/

/-- R160: the shifter on the fields of an amount gives, under MOD64, the shift by the amount modulo 64 and, under ZERO, the true
shift below 64 and zero from 64 on; the reference configuration is MOD64. -/
def Obligations.ShifterFollowsThePolicyOnAmounts : Prop :=
  State.reset.cfg.shiftPolicy = .mod64 ∧
  ∀ (v : Word) (amount : Nat), amount < 2 ^ 64 →
    let ov := decide (64 ≤ amount)
    let sh := amount % 64
    (shiftResult .mod64 .left v ov sh).toNat = v.toNat * 2 ^ (amount % 64) % 2 ^ 64 ∧
    (shiftResult .mod64 .right v ov sh).toNat = v.toNat / 2 ^ (amount % 64) ∧
    (shiftResult .zero .left v ov sh).toNat = (if 64 ≤ amount then 0 else v.toNat * 2 ^ amount % 2 ^ 64) ∧
    (shiftResult .zero .right v ov sh).toNat = (if 64 ≤ amount then 0 else v.toNat / 2 ^ amount)

/-- R25 and R26: the eight writers set the flag from the value they write; no other instruction touches it. -/
def Obligations.OnlyTheEightWriteTheZeroFlag : Prop :=
  ∀ i s t, exec i s = .next t →
    (writesZeroFlag i = true → ∃ rd, destination i = some rd ∧ (t.zf = true ↔ t.reg rd = 0#64)) ∧
    (writesZeroFlag i = false → t.zf = s.zf)

/-- R21: an instruction changes no register but its destination, and none without one. -/
def Obligations.OnlyTheDestinationRegisterChanges : Prop :=
  ∀ i s t r, exec i s = .next t → destination i ≠ some r → t.reg r = s.reg r

/-- R32: how every instruction leaves `pc`. -/
def Obligations.PcAdvancesByOneOrToTheTarget : Prop :=
  ∀ i s t, exec i s = .next t →
    (i = .debug ∧ t.pc = s.pc) ∨
    (∃ lid, (i = .jz lid ∨ i = .jnz lid ∨ i = .j lid) ∧
      (((s.ltRead lid).valid = false ∧ t.pc = s.pc ∧ t.run = .faulted) ∨
       ((s.ltRead lid).valid = true ∧
        t.pc = if (i = .jz lid ∧ s.zf = true) ∨ (i = .jnz lid ∧ s.zf = false) ∨ i = .j lid
          then (s.ltRead lid).target else s.pc + 1))) ∨
    (i ≠ .debug ∧ (∀ lid, i ≠ .jz lid ∧ i ≠ .jnz lid ∧ i ≠ .j lid) ∧ t.pc = s.pc + 1)

/-- The source's test property: `inc` and `dec` are `add` and `sub` by a register that holds 1. -/
def Obligations.IncAndDecAreAddAndSubByOne : Prop :=
  ∀ (rd r1 : Reg) s, s.reg r1 = 1#64 →
    exec (.inc rd) s = exec (.add rd rd r1) s ∧ exec (.dec rd) s = exec (.sub rd rd r1) s

/-! ### Encoding -/

/-- Decoding the word of a well-formed instruction gives the instruction, with every operand. -/
def Obligations.DecodeOfEncodeIsTheInstruction : Prop :=
  ∀ i : Instr, i.wellFormed = true → decode (encode i) = .ok i

/-- A word has one meaning and no bit of it is dropped: what it decodes to is well formed and encodes to that very word. -/
def Obligations.EncodeOfDecodeIsTheWord : Prop :=
  ∀ (w : IWord) i, decode w = .ok i → i.wellFormed = true ∧ encode i = w

/-- R77: a word is legal exactly when it matches a row of the opcode map, and no word matches two rows. -/
def Obligations.LegalExactlyWhenOneRowMatches : Prop :=
  ∀ w : IWord, ((∃ i, decode w = .ok i) ↔ legalWord w = true) ∧ (opcodeRows.filter (matchesRow w)).length ≤ 1

/-- The words of the test vectors E1 to E18 and E19 to E27, written out in the spec, decode as they say. -/
def Obligations.SpecWordsDecodeAsListed : Prop :=
  decode 0x17000000#32 = .ok (.zero 7) ∧ decode 0x1F000000#32 = .ok (.mov 7 0) ∧
  decode 0x27D40000#32 = .ok (.add 7 6 5) ∧ decode 0x2B280000#32 = .ok (.sub 3 1 2) ∧
  decode 0x49240000#32 = .ok (.or 1 1 1) ∧ decode 0x61000041#32 = .ok (.shl 1 true 1) ∧
  decode 0x6A00003F#32 = .ok (.shr 2 false 63) ∧ decode 0x78123456#32 = .ok (.jnz 0x123456) ∧
  decode 0x80FFFFFF#32 = .ok (.j 0xFFFFFF) ∧ decode 0x88000000#32 = .error .opcodeUnassigned ∧
  decode 0x18100000#32 = .error .reservedBitsSet ∧ decode 0x71000000#32 = .error .reservedBitsSet

/-! ### The step -/

/-- A step at a `pc` below N whose word decodes runs that instruction, on the state with the host's quiet move taken. -/
def Obligations.StepRunsTheDecodedInstruction : Prop :=
  ∀ s rest i, QuietThen s rest → s.run = .run → s.pc < s.icount → decode (s.ifetch s.pc) = .ok i →
    step s = exec i { s with host := rest }

/-- The placed word is what the next step fetches and runs, from any state. -/
def Obligations.StepRunsThePlacedWord : Prop :=
  ∀ (s : State) (w : Nat) i, w < 2 ^ 32 → decode (BitVec.ofNat 32 w) = .ok i →
    step (s.withFetchWord 32 w) = exec i (s.withFetchWord 32 w) ∧ (s.withFetchWord 32 w).pc = s.pc ∧
    SameRegs s (s.withFetchWord 32 w) ∧ (s.withFetchWord 32 w).zf = s.zf ∧
    (∀ lid, (s.withFetchWord 32 w).ltRead lid = s.ltRead lid)

/-- R207 (with R35, R203 and R204): the checks of a step, in their order, each clause with those before it ruled out; and
DEBUG_INPUT_FAILURE arises in DEBUG_WAIT only, where no such check is made. -/
def Obligations.StepChecksInOrder : Prop :=
  (∀ s t, step s = .next t → t.cause = .debugInputFailure → s.cause = .debugInputFailure ∨ s.run = .debugWait) ∧
  ∀ s rest, QuietThen s rest → s.run = .run →
    (s.pc = s.icount → step s = .next { s with run := .halted, host := rest }) ∧
    (s.icount < s.pc → ∃ t, step s = .next t ∧ FaultRecorded { s with host := rest } t .pcRange 0) ∧
    (s.pc < s.icount → legalWord (s.ifetch s.pc) = false → ∃ t, step s = .next t ∧
      FaultRecorded { s with host := rest } t .illegalInstruction (s.ifetch s.pc).toNat) ∧
    (∀ lid, s.pc < s.icount →
      (decode (s.ifetch s.pc) = .ok (.jz lid) ∨ decode (s.ifetch s.pc) = .ok (.jnz lid) ∨ decode (s.ifetch s.pc) = .ok (.j lid)) →
      (s.ltRead lid).valid = false → ∃ t, step s = .next t ∧ FaultRecorded { s with host := rest } t .unknownLabel lid)

/-- R201: what fault entry writes and keeps; no further step is taken, and the host may READ. That "no further step" is a next
state equal but for the quiet move taken, and that READ's answer stands in `reply`, are the model's choices,
notes/assumptions/11.md and notes/assumptions/10.md. -/
def Obligations.FaultEntryRecordsAndFreezes : Prop :=
  ∀ (s : State) (c : Cause) (info : IWord),
    FaultRecorded s (s.raise c info) c info.toNat ∧
    (∀ rest, QuietThen (s.raise c info) rest →
      step (s.raise c info) = .next { s.raise c info with host := rest }) ∧
    (∀ rest, s.host = .issue .read :: rest →
      step (s.raise c info) = .next { s.raise c info with host := rest, reply := some (s.raise c info).view })

/-- R200: a step that enters FAULTED records one of the four causes, each under its condition and with its information. -/
def Obligations.FaultsAreTheFourOfTheTable : Prop :=
  ∀ s t, step s = .next t → s.run ≠ .faulted → t.run = .faulted →
    (s.run = .run ∧ s.pc < s.icount ∧ legalWord (s.ifetch s.pc) = false ∧ t.causeWord = 1#32 ∧ t.faultInfo = s.ifetch s.pc) ∨
    (s.run = .run ∧ s.pc < s.icount ∧ t.causeWord = 2#32 ∧ ∃ lid,
      (decode (s.ifetch s.pc) = .ok (.jz lid) ∨ decode (s.ifetch s.pc) = .ok (.jnz lid) ∨ decode (s.ifetch s.pc) = .ok (.j lid)) ∧
      (s.ltRead lid).valid = false ∧ t.faultInfo.toNat = lid) ∨
    (s.run = .run ∧ s.icount < s.pc ∧ t.causeWord = 3#32 ∧ t.faultInfo = 0#32) ∨
    (s.run = .debugWait ∧ HostIssues s .inputFail ∧ t.causeWord = 4#32 ∧ t.faultInfo = 0#32)

/-- R202: a step that enters FAULTED writes none of `x`, `zf` and `pc`, nor a memory, and records the faulting index. -/
def Obligations.FaultsArePrecise : Prop :=
  ∀ s t, step s = .next t → s.run ≠ .faulted → t.run = .faulted →
    SameRegs s t ∧ t.zf = s.zf ∧ t.pc = s.pc ∧ t.faultPc = s.pc ∧ t.imem = s.imem ∧ t.lt = s.lt ∧ t.icount = s.icount

/-- A taken jump (`j`, `jz` with `zf` set, `jnz` with `zf` clear) to an index that is no instruction (a table loaded by hand): N
halts at the next step, above N raises PC_RANGE there. -/
def Obligations.JumpBeyondTheProgramEndsAtTheNextStep : Prop :=
  ∀ s (lid : Nat) rest rest', QuietThen s rest → QuietThen { s with host := rest } rest' → s.run = .run → s.pc < s.icount →
    (decode (s.ifetch s.pc) = .ok (.j lid) ∨ (decode (s.ifetch s.pc) = .ok (.jz lid) ∧ s.zf = true) ∨
      (decode (s.ifetch s.pc) = .ok (.jnz lid) ∧ s.zf = false)) →
    (s.ltRead lid).valid = true →
    let landed : State := { s with pc := (s.ltRead lid).target, host := rest' }
    ((s.ltRead lid).target = s.icount → stepsTo 2 s { landed with run := .halted }) ∧
    (s.icount < (s.ltRead lid).target → ∃ t, stepsTo 2 s t ∧ FaultRecorded landed t .pcRange 0)

/-! ### The host port -/

/-- R230: the reset table, of the reset state and of what RESET leaves from any run state. That no word counts as loaded after
RESET, and that RESET keeps the parameters (R47) and the host's moves, is the model's inference, notes/assumptions/9.md. -/
def Obligations.ResetGivesTheResetTable : Prop :=
  HasResetValues State.reset ∧
  ∀ s rest, s.host = .issue .reset :: rest → ∃ t, step s = .next t ∧ HasResetValues t ∧ t.cfg = s.cfg ∧ t.host = rest

/-- START: RUN, at `pc` 0, with everything else as loaded. -/
def Obligations.StartBeginsAtIndexZero : Prop :=
  ∀ s rest, s.host = .issue .start :: rest → s.run = .idle → RunStateConsistent s →
    ∃ t, step s = .next t ∧ t.run = .run ∧ t.pc = 0 ∧ t = { s with run := .run, host := rest }

/-- LOAD_IMEM: the word is fetched at its index from then on, little-endian bytes under it; no other word and nothing else
changes. -/
def Obligations.LoadImemReplacesOneWord : Prop :=
  ∀ s rest i (w : IWord), s.host = .issue (.loadImem i w) :: rest → s.run = .idle → i < 2 ^ s.cfg.pcWidth - 1 →
    ∃ t, step s = .next t ∧ t.ifetch i = w ∧ t.loaded i = true ∧
      (∀ j, j ≠ i → t.ifetch j = s.ifetch j ∧ t.loaded j = s.loaded j) ∧
      (∀ k, k < 4 → (t.imemByte (4 * i + k)).toNat = w.toNat / 2 ^ (8 * k) % 256) ∧
      (∀ a, a / 4 ≠ i → t.imemByte a = s.imemByte a) ∧
      { t with imem := s.imem } = { s with host := rest }

/-- LOAD_LT: the entry is valid with its target; no other entry and nothing else changes. -/
def Obligations.LoadLtReplacesOneEntry : Prop :=
  ∀ s rest lid tgt, s.host = .issue (.loadLt lid tgt) :: rest → s.run = .idle → lid < 2 ^ 24 → tgt < 2 ^ s.cfg.pcWidth →
    ∃ t, step s = .next t ∧ t.ltRead lid = { valid := true, target := tgt } ∧
      (∀ l, l ≠ lid → t.ltRead l = s.ltRead l) ∧ { t with lt := s.lt } = { s with host := rest }

/-- PRELOAD and SET_ICOUNT: the one register, and nothing else. -/
def Obligations.PreloadAndSetIcountWriteOneRegister : Prop :=
  (∀ s rest r v, s.host = .issue (.preload r v) :: rest → s.run = .idle →
    ∃ t, step s = .next t ∧ t.reg r = v ∧ SameRegsBut r s t ∧ { t with x := s.x } = { s with host := rest }) ∧
  (∀ s rest n, s.host = .issue (.setIcount n) :: rest → s.run = .idle → n ≤ 2 ^ s.cfg.pcWidth - 1 →
    step s = .next { s with icount := n, host := rest })

/-- R122: RESUME from DEBUG_WAIT; a block that waits as a `debug` leaves it resumes at an index of at most N, and at N the next
step halts. -/
def Obligations.ResumeAdvancesPastTheDebug : Prop :=
  ∀ s rest, s.host = .issue .resume :: rest → s.run = .debugWait →
    step s = .next { s with pc := s.pc + 1, run := .run, host := rest } ∧
    (RunStateConsistent s → ∃ t, step s = .next t ∧ t.pc ≤ t.icount) ∧
    (s.pc + 1 = s.icount → ∀ rest', QuietThen { s with host := rest } rest' →
      stepsTo 2 s { s with pc := s.icount, run := .halted, host := rest' })

/-- R206: INPUT_FAIL in DEBUG_WAIT raises DEBUG_INPUT_FAILURE at the index of the `debug`. -/
def Obligations.InputFailRaisesAtTheDebug : Prop :=
  ∀ s rest, s.host = .issue .inputFail :: rest → s.run = .debugWait →
    ∃ t, step s = .next t ∧ FaultRecorded { s with host := rest } t .debugInputFailure 0

/-- READ returns the registers and the words of R41 and changes nothing of the block. That its answer stands in the field `reply`
is the model's choice, notes/assumptions/10.md. -/
def Obligations.ReadReturnsTheViewAndChangesNothing : Prop :=
  ∀ s rest, s.host = .issue .read :: rest → s.run ≠ .run →
    ∃ t v, step s = .next t ∧ t.reply = some v ∧ BlockUnchanged s t ∧ t.host = rest ∧
      (∀ r : Reg, v.x[r] = s.reg r) ∧ v.zf = s.zf ∧ v.pc = s.pc ∧ v.status.toNat = s.run.code ∧ v.cause.toNat = s.cause.code ∧
      v.faultPc = s.faultPc ∧ v.faultInfo = s.faultInfo ∧ v.icount = s.icount

/-- A transaction of R45 outside its allowed states has no effect; so during RUN the host changes nothing but by RESET, and
observes nothing. -/
def Obligations.TransactionsOutsideTheirStatesDoNothing : Prop :=
  ∀ s tx rest, s.host = .issue tx :: rest → TxListed s.cfg tx →
    (idleOnly tx = true ∧ s.run ≠ .idle) ∨ (waitOnly tx = true ∧ s.run ≠ .debugWait) ∨ (tx = .read ∧ s.run = .run) →
    step s = .next { s with host := rest }

/-- The model's choice, notes/assumptions/8.md: a step stops the model exactly where the host issues a transaction that R45 does
not list; in particular no instruction stops it, and nothing is refused. -/
def Obligations.OnlyUnlistedTransactionsStopTheModel : Prop :=
  ∀ s, ((∃ tx, HostIssues s tx ∧ ¬ TxListed s.cfg tx) ∧ ∃ f, step s = .fault f) ∨
    ((∀ tx, HostIssues s tx → TxListed s.cfg tx) ∧ ∃ t, step s = .next t)

/-! ### The run state and the registers the host reads -/

/-- R40: the codes of the five run states, and what leaves each of them. -/
def Obligations.RunStateChangesAreTheTabledOnes : Prop :=
  (∀ s : State, s.statusWord = match s.run with
    | .idle => 0#32 | .run => 1#32 | .debugWait => 2#32 | .halted => 3#32 | .faulted => 4#32) ∧
  ∀ s t, step s = .next t →
    t.run = s.run ∨ (t.run = .idle ∧ HostIssues s .reset) ∨
    (s.run = .idle ∧ t.run = .run ∧ HostIssues s .start) ∨
    (s.run = .run ∧ t.run = .halted ∧ s.pc = s.icount) ∨
    (s.run = .run ∧ t.run = .faulted ∧ t.cause ≠ .none) ∨
    (s.run = .run ∧ t.run = .debugWait ∧ decode (s.ifetch s.pc) = .ok .debug) ∨
    (s.run = .debugWait ∧ t.run = .run ∧ HostIssues s .resume) ∨
    (s.run = .debugWait ∧ t.run = .faulted ∧ HostIssues s .inputFail)

/-- R216: DEBUG_WAIT keeps all state until RESUME, INPUT_FAIL or RESET; HALTED and FAULTED are final until RESET. -/
def Obligations.WaitAndEndStatesKeepAllState : Prop :=
  ∀ s t, step s = .next t → ¬ HostIssues s .reset →
    (s.run = .halted ∨ s.run = .faulted ∨ (s.run = .debugWait ∧ ¬ HostIssues s .resume ∧ ¬ HostIssues s .inputFail)) →
    BlockUnchanged s t

/-- R42, R54 and R57: outside IDLE only RESET changes ICOUNT, a byte of instruction memory or an entry of the label table. -/
def Obligations.ProgramIsImmutableOutsideIdle : Prop :=
  ∀ s t, step s = .next t → s.run ≠ .idle → ¬ HostIssues s .reset →
    t.icount = s.icount ∧ t.imem = s.imem ∧ (∀ a, t.imemByte a = s.imemByte a) ∧ (∀ i, t.ifetch i = s.ifetch i) ∧
    t.lt = s.lt ∧ (∀ lid, t.ltRead lid = s.ltRead lid)

/-- The parameters are fixed for a machine: no step changes them. -/
def Obligations.NoStepChangesTheParameters : Prop :=
  ∀ s t, step s = .next t → t.cfg = s.cfg

/-! ### Invariants -/

/-- Both memories are in canonical form in the reset state. -/
def Obligations.ResetIsCanonical : Prop := Canonical State.reset

/-- Every step keeps both memories in canonical form. -/
def Obligations.StepKeepsCanonicalMemories : Prop :=
  ∀ s t, Canonical s → step s = .next t → Canonical t

/-- The widths and the run-state invariant hold in the reset state, whatever the parameters. -/
def Obligations.ResetFitsItsWidths : Prop :=
  ∀ c : Params, 1 ≤ c.pcWidth → FitsWidth { State.reset with cfg := c } ∧ RunStateConsistent { State.reset with cfg := c }

/-- Every step keeps every PC_WIDTH field within its width, so `pc` never wraps, and keeps what each run state says of the other
registers. -/
def Obligations.StepKeepsWidthsAndRunState : Prop :=
  ∀ s t, FitsWidth s → RunStateConsistent s → step s = .next t → FitsWidth t ∧ RunStateConsistent t

/-- Until the host issues RESET, a started run within the loader premises P1 to P3 stays so, with `pc` in `0..N`, and records no
PC_RANGE, whatever its words are; where every word is legal too, they stay legal and no ILLEGAL_INSTRUCTION is recorded. -/
def Obligations.LoaderPremisesKeepTheRunWithinTheProgram : Prop :=
  ∀ s t, WithinProgram s → step s = .next t → ¬ HostIssues s .reset →
    WithinProgram t ∧
    (LegalProgram s → s.cause ≠ .illegalInstruction → LegalProgram t ∧ t.cause ≠ .illegalInstruction)

/-- Within the loader premises no step sees what unloaded instruction memory holds: the run is the same for other free values. -/
def Obligations.UnloadedMemoryIsNeverSeen : Prop :=
  ∀ s t e, WithinProgram s → ¬ HostIssues s .reset → step s = .next t →
    step { s with epoch := e } = .next { t with epoch := e }

/-! ### The assembler and the boot -/

/-- R109: one word a line, each from its own line; targets below N; every word legal. -/
def Obligations.AssemblerOutputHasOneLegalWordPerLine : Prop :=
  ∀ lines p, assemble lines = .ok p →
    p.words.length = lines.length ∧
    (∀ (i : Nat) (line : List Char) (w : IWord), lines[i]? = some line → p.words[i]? = some w →
      (∃ ins, parseLine line = .ok (.plain ins) ∧ w = encode ins) ∨
      (∃ name, parseLine line = .ok (.declare name) ∧ w = 0#32) ∨
      (∃ k name lid, parseLine line = .ok (.jump k name) ∧ w = encode (k.instr lid))) ∧
    (∀ l, l ∈ p.labels → l.1 < 2 ^ 24 ∧ l.2 < lines.length) ∧
    (∀ w, w ∈ p.words → legalWord w = true)

/-- R91: two texts whose characters agree place by place, but for an ASCII capital (codes 65 to 90) against the letter 32 codes
above it, assemble to the same; so the line of the vector A1 assembles to its word in every mixture of cases. -/
def Obligations.AssemblerIgnoresCase : Prop :=
  let sameButCase : Char → Char → Prop := fun a b =>
    a = b ∨ (65 ≤ a.toNat ∧ a.toNat ≤ 90 ∧ b.toNat = a.toNat + 32) ∨ (65 ≤ b.toNat ∧ b.toNat ≤ 90 ∧ a.toNat = b.toNat + 32)
  (∀ text text', List.Forall₂ (List.Forall₂ sameButCase) text text' → assemble text = assemble text') ∧
  (∀ line, List.Forall₂ sameButCase "add r0, r1, r2".toList line →
    assemble [line] = .ok { words := [0x20280000#32], labels := [] })

/-- R92: the line is cut at the earliest position where `//`, `;` or `#` begins. -/
def Obligations.CommentIsCutAtTheEarliestMarker : Prop :=
  let startsMarker : List Char → Prop := fun l => l.head? = some ';' ∨ l.head? = some '#' ∨ l.take 2 = ['/', '/']
  ∀ line : List Char, ∃ rest, line = stripComment line ++ rest ∧ (rest = [] ∨ startsMarker rest) ∧
    ∀ u v, line = u ++ v → u.length < (stripComment line).length → ¬ startsMarker v

/-- A jump's word carries an identifier whose entry is the index of the last line that declares its label, before or after the
jump, and no entry where no line declares it. -/
def Obligations.JumpsResolveToTheLastDeclaration : Prop :=
  ∀ (lines : List (List Char)) p (i : Nat) line k name, assemble lines = .ok p → lines[i]? = some line → parseLine line = .ok (.jump k name) →
    ∃ lid, p.words[i]? = some (encode (k.instr lid)) ∧ lid < 2 ^ 24 ∧
      ((∃ (d : Nat) (l : List Char), Cells.read p.labels lid = some d ∧ lines[d]? = some l ∧ parseLine l = .ok (.declare name) ∧
          ∀ (d' : Nat) (l' : List Char), d < d' → lines[d']? = some l' → parseLine l' ≠ .ok (.declare name)) ∨
       (Cells.read p.labels lid = none ∧ ∀ (d' : Nat) (l' : List Char), lines[d']? = some l' → parseLine l' ≠ .ok (.declare name)))

/-- From reset, for every value of the parameters that can hold the program, the boot moves of a launch lead to RUN at `pc` 0
with the assembled words, labels and preloads in place, within the loader premises and with legal words. -/
def Obligations.BootReachesTheAssembledProgram : Prop :=
  ∀ (c : Params) lines overrides moves p preloads,
    assemble lines = .ok p → preloadsOf overrides = some preloads → launch lines overrides = some moves →
    1 ≤ c.pcWidth → lines.length ≤ 2 ^ c.pcWidth - 1 →
    ∃ t, stepsTo moves.length { State.reset with cfg := c, host := moves } t ∧
      t.run = .run ∧ t.pc = 0 ∧ t.zf = false ∧ t.icount = lines.length ∧ t.host = [] ∧
      (∀ (i : Nat) w, p.words[i]? = some w → t.ifetch i = w) ∧
      (∀ lid, t.ltRead lid = match Cells.read p.labels lid with
        | some d => { valid := true, target := d }
        | none => { valid := false, target := 0 }) ∧
      (∀ r, t.reg r = match preloads.find? (fun q => q.1 = r) with
        | some q => q.2
        | none => 0#64) ∧
      WithinProgram t ∧ LegalProgram t
end

