-- ==== Sys2Proof/Laws/Encoding.lean ====
section
/-!
SUPPORT. The fields of a word as quotients and remainders, and the words of the six formats as sums: one lemma per format (R72), so that no later proof unfolds a concatenation.
-/

namespace Sys2Proof

/-- `w[hi:lo]` as a quotient and a remainder. -/
theorem field_eq (w : IWord) (hi lo : Nat) : field w hi lo = w.toNat / 2 ^ lo % 2 ^ (hi - lo + 1) := by
  simp [field, BitVec.extractLsb_toNat, Nat.shiftRight_eq_div_pow]

theorem regField_val (w : IWord) (lo : Nat) : (regField w lo).val = w.toNat / 2 ^ lo % 8 := by
  simp [regField, field_eq]

/-- Concatenation as a sum. -/
theorem toNat_append_sum {m n : Nat} (x : BitVec m) (y : BitVec n) : (x ++ y).toNat = x.toNat * 2 ^ n + y.toNat := by
  rw [BitVec.toNat_append, ← Nat.shiftLeft_add_eq_or_of_lt y.isLt, Nat.shiftLeft_eq]

@[simp] theorem regBits_toNat (r : Reg) : (regBits r).toNat = r.val := by
  simp [regBits]

theorem formatN_toNat (op : BitVec 5) :
    (formatN op).toNat = op.toNat * 2 ^ 27 := by
  change BitVec.toNat (w := 5 + 27) (op ++ 0#27) = _
  simp only [toNat_append_sum, BitVec.toNat_ofNat]
  omega

theorem formatR1_toNat (op : BitVec 5) (rd : Reg) :
    (formatR1 op rd).toNat = op.toNat * 2 ^ 27 + rd.val * 2 ^ 24 := by
  change BitVec.toNat (w := 5 + 3 + 24) (op ++ regBits rd ++ 0#24) = _
  simp only [toNat_append_sum, regBits_toNat, BitVec.toNat_ofNat]
  omega

theorem formatR2_toNat (op : BitVec 5) (rd rs1 : Reg) :
    (formatR2 op rd rs1).toNat = op.toNat * 2 ^ 27 + rd.val * 2 ^ 24 + rs1.val * 2 ^ 21 := by
  change BitVec.toNat (w := 5 + 3 + 3 + 21) (op ++ regBits rd ++ regBits rs1 ++ 0#21) = _
  simp only [toNat_append_sum, regBits_toNat, BitVec.toNat_ofNat]
  omega

theorem formatR3_toNat (op : BitVec 5) (rd rs1 rs2 : Reg) :
    (formatR3 op rd rs1 rs2).toNat = op.toNat * 2 ^ 27 + rd.val * 2 ^ 24 + rs1.val * 2 ^ 21 + rs2.val * 2 ^ 18 := by
  change BitVec.toNat (w := 5 + 3 + 3 + 3 + 18) (op ++ regBits rd ++ regBits rs1 ++ regBits rs2 ++ 0#18) = _
  simp only [toNat_append_sum, regBits_toNat, BitVec.toNat_ofNat]
  omega

theorem formatSH_toNat (op : BitVec 5) (rd : Reg) (ov : Bool) (sh : Nat) :
    (formatSH op rd ov sh).toNat = op.toNat * 2 ^ 27 + rd.val * 2 ^ 24 + ov.toNat * 2 ^ 6 + sh % 64 := by
  change BitVec.toNat (w := 5 + 3 + 17 + 1 + 6) (op ++ regBits rd ++ 0#17 ++ BitVec.ofBool ov ++ BitVec.ofNat 6 sh) = _
  simp only [toNat_append_sum, regBits_toNat, BitVec.toNat_ofNat, BitVec.toNat_ofBool]
  omega

theorem formatL_toNat (op : BitVec 5) (lid : Nat) :
    (formatL op lid).toNat = op.toNat * 2 ^ 27 + lid % 2 ^ 24 := by
  change BitVec.toNat (w := 5 + 3 + 24) (op ++ 0#3 ++ BitVec.ofNat 24 lid) = _
  simp only [toNat_append_sum, BitVec.toNat_ofNat]
  omega

theorem lidFits_iff (lid : Nat) : lidFits lid = true ↔ lid < 2 ^ 24 := by
  unfold lidFits
  rw [decide_eq_true_iff]
  exact Iff.rfl

theorem shiftFieldFits_iff (sh : Nat) : shiftFieldFits sh = true ↔ sh < 64 := by
  simp [shiftFieldFits]

/-! ### The fields of each format, as the decoder reads them -/

theorem field_of_toNat {w : IWord} {hi lo v : Nat} (h : w.toNat / 2 ^ lo % 2 ^ (hi - lo + 1) = v) : field w hi lo = v := by
  rw [field_eq, h]

theorem regField_of_toNat {w : IWord} {lo : Nat} {r : Reg} (h : w.toNat / 2 ^ lo % 8 = r.val) : regField w lo = r :=
  Fin.ext (by rw [regField_val, h])

theorem whenZero_eq_ok {n : Nat} {i j : Instr} : whenZero n i = .ok j ↔ n = 0 ∧ i = j := by
  unfold whenZero
  split <;> simp_all

theorem formatR1_fields (op : BitVec 5) (rd : Reg) :
    field (formatR1 op rd) 31 27 = op.toNat ∧ field (formatR1 op rd) 23 0 = 0 ∧ regField (formatR1 op rd) 24 = rd := by
  have h := formatR1_toNat op rd
  have := rd.isLt
  refine ⟨field_of_toNat ?_, field_of_toNat ?_, regField_of_toNat ?_⟩ <;> simp [h] <;> omega

theorem formatR2_fields (op : BitVec 5) (rd rs1 : Reg) :
    field (formatR2 op rd rs1) 31 27 = op.toNat ∧ field (formatR2 op rd rs1) 20 0 = 0 ∧
    regField (formatR2 op rd rs1) 24 = rd ∧ regField (formatR2 op rd rs1) 21 = rs1 := by
  have h := formatR2_toNat op rd rs1
  have := rd.isLt
  have := rs1.isLt
  refine ⟨field_of_toNat ?_, field_of_toNat ?_, regField_of_toNat ?_, regField_of_toNat ?_⟩ <;> simp [h] <;> omega

theorem formatR3_fields (op : BitVec 5) (rd rs1 rs2 : Reg) :
    field (formatR3 op rd rs1 rs2) 31 27 = op.toNat ∧ field (formatR3 op rd rs1 rs2) 17 0 = 0 ∧
    regField (formatR3 op rd rs1 rs2) 24 = rd ∧ regField (formatR3 op rd rs1 rs2) 21 = rs1 ∧
    regField (formatR3 op rd rs1 rs2) 18 = rs2 := by
  have h := formatR3_toNat op rd rs1 rs2
  have := rd.isLt
  have := rs1.isLt
  have := rs2.isLt
  refine ⟨field_of_toNat ?_, field_of_toNat ?_, regField_of_toNat ?_, regField_of_toNat ?_, regField_of_toNat ?_⟩ <;>
    simp [h] <;> omega

theorem formatSH_fields (op : BitVec 5) (rd : Reg) (ov : Bool) {sh : Nat} (hs : sh < 64) :
    field (formatSH op rd ov sh) 31 27 = op.toNat ∧ field (formatSH op rd ov sh) 23 7 = 0 ∧
    regField (formatSH op rd ov sh) 24 = rd ∧ field (formatSH op rd ov sh) 6 6 = ov.toNat ∧
    field (formatSH op rd ov sh) 5 0 = sh := by
  have h := formatSH_toNat op rd ov sh
  have := rd.isLt
  have := ov.toNat_lt
  refine ⟨field_of_toNat ?_, field_of_toNat ?_, regField_of_toNat ?_, field_of_toNat ?_, field_of_toNat ?_⟩ <;>
    simp [h] <;> omega

theorem formatL_fields (op : BitVec 5) {lid : Nat} (hl : lid < 2 ^ 24) :
    field (formatL op lid) 31 27 = op.toNat ∧ field (formatL op lid) 26 24 = 0 ∧ field (formatL op lid) 23 0 = lid := by
  have h := formatL_toNat op lid
  refine ⟨field_of_toNat ?_, field_of_toNat ?_, field_of_toNat ?_⟩ <;> simp [h] <;> omega

end Sys2Proof
end

