-- ==== Sys2Proof/Laws/State.lean ====
section
/-!
SUPPORT. What each update of the state leaves in each field: one lemma per field per update, so that no later proof unfolds a record update. Composite updates are simplified to these.
-/

namespace Sys2Proof.Machine.State

variable (s : State)


/-! ### setReg -/

@[simp] theorem setReg_x (r : Reg) (v : Word) : (s.setReg r v).x = s.x.set r v := rfl
@[simp] theorem setReg_zf (r : Reg) (v : Word) : (s.setReg r v).zf = s.zf := rfl
@[simp] theorem setReg_pc (r : Reg) (v : Word) : (s.setReg r v).pc = s.pc := rfl
@[simp] theorem setReg_run (r : Reg) (v : Word) : (s.setReg r v).run = s.run := rfl
@[simp] theorem setReg_cause (r : Reg) (v : Word) : (s.setReg r v).cause = s.cause := rfl
@[simp] theorem setReg_faultPc (r : Reg) (v : Word) : (s.setReg r v).faultPc = s.faultPc := rfl
@[simp] theorem setReg_faultInfo (r : Reg) (v : Word) : (s.setReg r v).faultInfo = s.faultInfo := rfl
@[simp] theorem setReg_icount (r : Reg) (v : Word) : (s.setReg r v).icount = s.icount := rfl
@[simp] theorem setReg_imem (r : Reg) (v : Word) : (s.setReg r v).imem = s.imem := rfl
@[simp] theorem setReg_lt (r : Reg) (v : Word) : (s.setReg r v).lt = s.lt := rfl
@[simp] theorem setReg_cfg (r : Reg) (v : Word) : (s.setReg r v).cfg = s.cfg := rfl
@[simp] theorem setReg_epoch (r : Reg) (v : Word) : (s.setReg r v).epoch = s.epoch := rfl
@[simp] theorem setReg_host (r : Reg) (v : Word) : (s.setReg r v).host = s.host := rfl
@[simp] theorem setReg_reply (r : Reg) (v : Word) : (s.setReg r v).reply = s.reply := rfl

/-! ### setZf -/

@[simp] theorem setZf_x (b : Bool) : (s.setZf b).x = s.x := rfl
@[simp] theorem setZf_zf (b : Bool) : (s.setZf b).zf = b := rfl
@[simp] theorem setZf_pc (b : Bool) : (s.setZf b).pc = s.pc := rfl
@[simp] theorem setZf_run (b : Bool) : (s.setZf b).run = s.run := rfl
@[simp] theorem setZf_cause (b : Bool) : (s.setZf b).cause = s.cause := rfl
@[simp] theorem setZf_faultPc (b : Bool) : (s.setZf b).faultPc = s.faultPc := rfl
@[simp] theorem setZf_faultInfo (b : Bool) : (s.setZf b).faultInfo = s.faultInfo := rfl
@[simp] theorem setZf_icount (b : Bool) : (s.setZf b).icount = s.icount := rfl
@[simp] theorem setZf_imem (b : Bool) : (s.setZf b).imem = s.imem := rfl
@[simp] theorem setZf_lt (b : Bool) : (s.setZf b).lt = s.lt := rfl
@[simp] theorem setZf_cfg (b : Bool) : (s.setZf b).cfg = s.cfg := rfl
@[simp] theorem setZf_epoch (b : Bool) : (s.setZf b).epoch = s.epoch := rfl
@[simp] theorem setZf_host (b : Bool) : (s.setZf b).host = s.host := rfl
@[simp] theorem setZf_reply (b : Bool) : (s.setZf b).reply = s.reply := rfl

/-! ### jumpTo -/

@[simp] theorem jumpTo_x (t : Nat) : (s.jumpTo t).x = s.x := rfl
@[simp] theorem jumpTo_zf (t : Nat) : (s.jumpTo t).zf = s.zf := rfl
@[simp] theorem jumpTo_pc (t : Nat) : (s.jumpTo t).pc = t := rfl
@[simp] theorem jumpTo_run (t : Nat) : (s.jumpTo t).run = s.run := rfl
@[simp] theorem jumpTo_cause (t : Nat) : (s.jumpTo t).cause = s.cause := rfl
@[simp] theorem jumpTo_faultPc (t : Nat) : (s.jumpTo t).faultPc = s.faultPc := rfl
@[simp] theorem jumpTo_faultInfo (t : Nat) : (s.jumpTo t).faultInfo = s.faultInfo := rfl
@[simp] theorem jumpTo_icount (t : Nat) : (s.jumpTo t).icount = s.icount := rfl
@[simp] theorem jumpTo_imem (t : Nat) : (s.jumpTo t).imem = s.imem := rfl
@[simp] theorem jumpTo_lt (t : Nat) : (s.jumpTo t).lt = s.lt := rfl
@[simp] theorem jumpTo_cfg (t : Nat) : (s.jumpTo t).cfg = s.cfg := rfl
@[simp] theorem jumpTo_epoch (t : Nat) : (s.jumpTo t).epoch = s.epoch := rfl
@[simp] theorem jumpTo_host (t : Nat) : (s.jumpTo t).host = s.host := rfl
@[simp] theorem jumpTo_reply (t : Nat) : (s.jumpTo t).reply = s.reply := rfl

/-! ### raise -/

@[simp] theorem raise_x (c : Cause) (w : IWord) : (s.raise c w).x = s.x := rfl
@[simp] theorem raise_zf (c : Cause) (w : IWord) : (s.raise c w).zf = s.zf := rfl
@[simp] theorem raise_pc (c : Cause) (w : IWord) : (s.raise c w).pc = s.pc := rfl
@[simp] theorem raise_run (c : Cause) (w : IWord) : (s.raise c w).run = .faulted := rfl
@[simp] theorem raise_cause (c : Cause) (w : IWord) : (s.raise c w).cause = c := rfl
@[simp] theorem raise_faultPc (c : Cause) (w : IWord) : (s.raise c w).faultPc = s.pc := rfl
@[simp] theorem raise_faultInfo (c : Cause) (w : IWord) : (s.raise c w).faultInfo = w := rfl
@[simp] theorem raise_icount (c : Cause) (w : IWord) : (s.raise c w).icount = s.icount := rfl
@[simp] theorem raise_imem (c : Cause) (w : IWord) : (s.raise c w).imem = s.imem := rfl
@[simp] theorem raise_lt (c : Cause) (w : IWord) : (s.raise c w).lt = s.lt := rfl
@[simp] theorem raise_cfg (c : Cause) (w : IWord) : (s.raise c w).cfg = s.cfg := rfl
@[simp] theorem raise_epoch (c : Cause) (w : IWord) : (s.raise c w).epoch = s.epoch := rfl
@[simp] theorem raise_host (c : Cause) (w : IWord) : (s.raise c w).host = s.host := rfl
@[simp] theorem raise_reply (c : Cause) (w : IWord) : (s.raise c w).reply = s.reply := rfl

/-! ### halt -/

@[simp] theorem halt_x : (s.halt).x = s.x := rfl
@[simp] theorem halt_zf : (s.halt).zf = s.zf := rfl
@[simp] theorem halt_pc : (s.halt).pc = s.pc := rfl
@[simp] theorem halt_run : (s.halt).run = .halted := rfl
@[simp] theorem halt_cause : (s.halt).cause = s.cause := rfl
@[simp] theorem halt_faultPc : (s.halt).faultPc = s.faultPc := rfl
@[simp] theorem halt_faultInfo : (s.halt).faultInfo = s.faultInfo := rfl
@[simp] theorem halt_icount : (s.halt).icount = s.icount := rfl
@[simp] theorem halt_imem : (s.halt).imem = s.imem := rfl
@[simp] theorem halt_lt : (s.halt).lt = s.lt := rfl
@[simp] theorem halt_cfg : (s.halt).cfg = s.cfg := rfl
@[simp] theorem halt_epoch : (s.halt).epoch = s.epoch := rfl
@[simp] theorem halt_host : (s.halt).host = s.host := rfl
@[simp] theorem halt_reply : (s.halt).reply = s.reply := rfl

/-! ### awaitHost -/

@[simp] theorem awaitHost_x : (s.awaitHost).x = s.x := rfl
@[simp] theorem awaitHost_zf : (s.awaitHost).zf = s.zf := rfl
@[simp] theorem awaitHost_pc : (s.awaitHost).pc = s.pc := rfl
@[simp] theorem awaitHost_run : (s.awaitHost).run = .debugWait := rfl
@[simp] theorem awaitHost_cause : (s.awaitHost).cause = s.cause := rfl
@[simp] theorem awaitHost_faultPc : (s.awaitHost).faultPc = s.faultPc := rfl
@[simp] theorem awaitHost_faultInfo : (s.awaitHost).faultInfo = s.faultInfo := rfl
@[simp] theorem awaitHost_icount : (s.awaitHost).icount = s.icount := rfl
@[simp] theorem awaitHost_imem : (s.awaitHost).imem = s.imem := rfl
@[simp] theorem awaitHost_lt : (s.awaitHost).lt = s.lt := rfl
@[simp] theorem awaitHost_cfg : (s.awaitHost).cfg = s.cfg := rfl
@[simp] theorem awaitHost_epoch : (s.awaitHost).epoch = s.epoch := rfl
@[simp] theorem awaitHost_host : (s.awaitHost).host = s.host := rfl
@[simp] theorem awaitHost_reply : (s.awaitHost).reply = s.reply := rfl

/-! ### startRun -/

@[simp] theorem startRun_x : (s.startRun).x = s.x := rfl
@[simp] theorem startRun_zf : (s.startRun).zf = s.zf := rfl
@[simp] theorem startRun_pc : (s.startRun).pc = s.pc := rfl
@[simp] theorem startRun_run : (s.startRun).run = .run := rfl
@[simp] theorem startRun_cause : (s.startRun).cause = s.cause := rfl
@[simp] theorem startRun_faultPc : (s.startRun).faultPc = s.faultPc := rfl
@[simp] theorem startRun_faultInfo : (s.startRun).faultInfo = s.faultInfo := rfl
@[simp] theorem startRun_icount : (s.startRun).icount = s.icount := rfl
@[simp] theorem startRun_imem : (s.startRun).imem = s.imem := rfl
@[simp] theorem startRun_lt : (s.startRun).lt = s.lt := rfl
@[simp] theorem startRun_cfg : (s.startRun).cfg = s.cfg := rfl
@[simp] theorem startRun_epoch : (s.startRun).epoch = s.epoch := rfl
@[simp] theorem startRun_host : (s.startRun).host = s.host := rfl
@[simp] theorem startRun_reply : (s.startRun).reply = s.reply := rfl

/-! ### loadWord -/

@[simp] theorem loadWord_x (i : Nat) (w : IWord) : (s.loadWord i w).x = s.x := rfl
@[simp] theorem loadWord_zf (i : Nat) (w : IWord) : (s.loadWord i w).zf = s.zf := rfl
@[simp] theorem loadWord_pc (i : Nat) (w : IWord) : (s.loadWord i w).pc = s.pc := rfl
@[simp] theorem loadWord_run (i : Nat) (w : IWord) : (s.loadWord i w).run = s.run := rfl
@[simp] theorem loadWord_cause (i : Nat) (w : IWord) : (s.loadWord i w).cause = s.cause := rfl
@[simp] theorem loadWord_faultPc (i : Nat) (w : IWord) : (s.loadWord i w).faultPc = s.faultPc := rfl
@[simp] theorem loadWord_faultInfo (i : Nat) (w : IWord) : (s.loadWord i w).faultInfo = s.faultInfo := rfl
@[simp] theorem loadWord_icount (i : Nat) (w : IWord) : (s.loadWord i w).icount = s.icount := rfl
@[simp] theorem loadWord_imem (i : Nat) (w : IWord) : (s.loadWord i w).imem = Memory.writeWord s.imem i w := rfl
@[simp] theorem loadWord_lt (i : Nat) (w : IWord) : (s.loadWord i w).lt = s.lt := rfl
@[simp] theorem loadWord_cfg (i : Nat) (w : IWord) : (s.loadWord i w).cfg = s.cfg := rfl
@[simp] theorem loadWord_epoch (i : Nat) (w : IWord) : (s.loadWord i w).epoch = s.epoch := rfl
@[simp] theorem loadWord_host (i : Nat) (w : IWord) : (s.loadWord i w).host = s.host := rfl
@[simp] theorem loadWord_reply (i : Nat) (w : IWord) : (s.loadWord i w).reply = s.reply := rfl

/-! ### loadLabel -/

@[simp] theorem loadLabel_x (l t : Nat) : (s.loadLabel l t).x = s.x := rfl
@[simp] theorem loadLabel_zf (l t : Nat) : (s.loadLabel l t).zf = s.zf := rfl
@[simp] theorem loadLabel_pc (l t : Nat) : (s.loadLabel l t).pc = s.pc := rfl
@[simp] theorem loadLabel_run (l t : Nat) : (s.loadLabel l t).run = s.run := rfl
@[simp] theorem loadLabel_cause (l t : Nat) : (s.loadLabel l t).cause = s.cause := rfl
@[simp] theorem loadLabel_faultPc (l t : Nat) : (s.loadLabel l t).faultPc = s.faultPc := rfl
@[simp] theorem loadLabel_faultInfo (l t : Nat) : (s.loadLabel l t).faultInfo = s.faultInfo := rfl
@[simp] theorem loadLabel_icount (l t : Nat) : (s.loadLabel l t).icount = s.icount := rfl
@[simp] theorem loadLabel_imem (l t : Nat) : (s.loadLabel l t).imem = s.imem := rfl
@[simp] theorem loadLabel_lt (l t : Nat) : (s.loadLabel l t).lt = LabelTable.write s.lt l { valid := true, target := t } := rfl
@[simp] theorem loadLabel_cfg (l t : Nat) : (s.loadLabel l t).cfg = s.cfg := rfl
@[simp] theorem loadLabel_epoch (l t : Nat) : (s.loadLabel l t).epoch = s.epoch := rfl
@[simp] theorem loadLabel_host (l t : Nat) : (s.loadLabel l t).host = s.host := rfl
@[simp] theorem loadLabel_reply (l t : Nat) : (s.loadLabel l t).reply = s.reply := rfl

/-! ### resetBlock -/

@[simp] theorem resetBlock_x : (s.resetBlock).x = Vector.replicate 8 0#64 := rfl
@[simp] theorem resetBlock_zf : (s.resetBlock).zf = false := rfl
@[simp] theorem resetBlock_pc : (s.resetBlock).pc = 0 := rfl
@[simp] theorem resetBlock_run : (s.resetBlock).run = .idle := rfl
@[simp] theorem resetBlock_cause : (s.resetBlock).cause = .none := rfl
@[simp] theorem resetBlock_faultPc : (s.resetBlock).faultPc = 0 := rfl
@[simp] theorem resetBlock_faultInfo : (s.resetBlock).faultInfo = 0#32 := rfl
@[simp] theorem resetBlock_icount : (s.resetBlock).icount = 0 := rfl
@[simp] theorem resetBlock_imem : (s.resetBlock).imem = [] := rfl
@[simp] theorem resetBlock_lt : (s.resetBlock).lt = [] := rfl
@[simp] theorem resetBlock_cfg : (s.resetBlock).cfg = s.cfg := rfl
@[simp] theorem resetBlock_epoch : (s.resetBlock).epoch = s.epoch + 1 := rfl
@[simp] theorem resetBlock_host : (s.resetBlock).host = s.host := rfl
@[simp] theorem resetBlock_reply : (s.resetBlock).reply = s.reply := rfl

/-! ### Composite updates, in terms of the ones above -/

@[simp] theorem nextPc_eq : s.nextPc = s.jumpTo (s.pc + 1) := rfl
@[simp] theorem resumeRun_eq : s.resumeRun = (s.jumpTo (s.pc + 1)).startRun := rfl
@[simp] theorem writePlain_eq (rd : Reg) (v : Word) : s.writePlain rd v = (s.setReg rd v).jumpTo (s.pc + 1) := rfl
@[simp] theorem writeFlagged_eq (rd : Reg) (v : Word) :
    s.writeFlagged rd v = ((s.setReg rd v).setZf (zeroFlag v)).jumpTo (s.pc + 1) := rfl

end Sys2Proof.Machine.State
end

