-- ==== Sys2Proof/Laws/Ops.lean ====
section
/-!
SUPPORT. What the shared operations do, each said once: keyed memories and their canonical form, registers, memory reads after an update, the flag, the resolver and jumps, the meanings (exec_cases) and the host port (transact_cases).
-/

namespace Sys2Proof.Machine

/-! ### Keyed memories -/

variable {α : Type}

theorem Cells.read_write_same (l : List (Nat × α)) (a : Nat) (v : α) : Cells.read (Cells.write l a v) a = some v := by
  induction l with
  | nil => simp [Cells.write, Cells.read]
  | cons c rest ih =>
    obtain ⟨k, u⟩ := c
    simp only [Cells.write]
    split
    · simp [Cells.read]
    · split
      · simp [Cells.read]
      · have hne : ¬ k = a := fun h => by simp [h] at *
        simpa [Cells.read, hne] using ih

theorem Cells.read_write_other (l : List (Nat × α)) {a b : Nat} (v : α) (h : b ≠ a) :
    Cells.read (Cells.write l a v) b = Cells.read l b := by
  have h' : ¬ a = b := fun e => h e.symm
  induction l with
  | nil => simp [Cells.write, Cells.read, h']
  | cons c rest ih =>
    obtain ⟨k, u⟩ := c
    simp only [Cells.write]
    split
    · simp [Cells.read, h']
    · split
      · subst_vars; simp [Cells.read, h']
      · simp [Cells.read, ih]

theorem Cells.read_write (l : List (Nat × α)) (a b : Nat) (v : α) :
    Cells.read (Cells.write l a v) b = if b = a then some v else Cells.read l b := by
  split
  · subst_vars; exact Cells.read_write_same l _ v
  · exact Cells.read_write_other l v ‹_›

theorem Cells.risingFrom_mono {lo lo' : Nat} {l : List (Nat × α)} (h : lo' ≤ lo) (hl : Cells.risingFrom lo l = true) :
    Cells.risingFrom lo' l = true := by
  cases l with
  | nil => rfl
  | cons c rest => simp [Cells.risingFrom] at hl ⊢; exact ⟨by omega, hl.2⟩

theorem Cells.risingFrom_write {lo : Nat} {l : List (Nat × α)} {a : Nat} (v : α) (ha : lo ≤ a)
    (hl : Cells.risingFrom lo l = true) : Cells.risingFrom lo (Cells.write l a v) = true := by
  induction l generalizing lo with
  | nil => simp [Cells.write, Cells.risingFrom, ha]
  | cons c rest ih =>
    obtain ⟨k, u⟩ := c
    simp only [Cells.risingFrom, Bool.and_eq_true, decide_eq_true_eq] at hl
    simp only [Cells.write]
    split
    · simp [Cells.risingFrom, ha, hl.2]; omega
    · split
      · subst_vars; simp [Cells.risingFrom, ha, hl.2]
      · simp only [Cells.risingFrom, Bool.and_eq_true, decide_eq_true_eq]
        exact ⟨hl.1, ih (by omega) hl.2⟩

theorem Cells.risingFrom_erase {lo : Nat} {l : List (Nat × α)} (a : Nat) (hl : Cells.risingFrom lo l = true) :
    Cells.risingFrom lo (Cells.erase l a) = true := by
  induction l generalizing lo with
  | nil => rfl
  | cons c rest ih =>
    obtain ⟨k, u⟩ := c
    simp only [Cells.risingFrom, Bool.and_eq_true, decide_eq_true_eq] at hl
    simp only [Cells.erase]
    split
    · exact Cells.risingFrom_mono (by omega) hl.2
    · simp [Cells.risingFrom, hl.1, ih hl.2]

theorem Cells.read_below {lo a : Nat} {l : List (Nat × α)} (hl : Cells.risingFrom lo l = true) (ha : a < lo) :
    Cells.read l a = none := by
  induction l generalizing lo with
  | nil => rfl
  | cons c rest ih =>
    obtain ⟨k, u⟩ := c
    simp only [Cells.risingFrom, Bool.and_eq_true, decide_eq_true_eq] at hl
    have hk : ¬ k = a := by omega
    simpa [Cells.read, hk] using ih hl.2 (by omega)

theorem Cells.read_erase {lo : Nat} {l : List (Nat × α)} (a b : Nat) (hl : Cells.risingFrom lo l = true) :
    Cells.read (Cells.erase l a) b = if b = a then none else Cells.read l b := by
  induction l generalizing lo with
  | nil => simp [Cells.erase, Cells.read]
  | cons c rest ih =>
    obtain ⟨k, u⟩ := c
    simp only [Cells.risingFrom, Bool.and_eq_true, decide_eq_true_eq] at hl
    simp only [Cells.erase]
    split
    · subst_vars
      split
      · subst_vars; exact Cells.read_below hl.2 (by omega)
      · have hb : ¬ k = b := fun e => ‹¬ b = k› e.symm
        simp [Cells.read, hb]
    · simp only [Cells.read, ih hl.2]
      split <;> split <;> simp_all

/-! ### The two memories keep their canonical form -/

theorem Memory.wf_writeWord {m : List Host.Cell} (i : Nat) (w : IWord) (h : Memory.wf m = true) :
    Memory.wf (Memory.writeWord m i w) = true := by
  unfold Memory.wf at *
  unfold Memory.writeWord
  iterate 4 apply Cells.risingFrom_write _ (Nat.zero_le _)
  exact h

theorem Cells.mem_write {l : List (Nat × α)} {a : Nat} {v : α} {c : Nat × α} (h : c ∈ Cells.write l a v) :
    c ∈ l ∨ c = (a, v) := by
  induction l with
  | nil => simpa [Cells.write] using h
  | cons d rest ih =>
    obtain ⟨k, u⟩ := d
    simp only [Cells.write] at h
    split at h
    · simp at h ⊢; tauto
    · split at h
      · simp at h ⊢; tauto
      · simp only [List.mem_cons] at h ⊢
        rcases h with h | h
        · tauto
        · rcases ih h with h | h <;> tauto

theorem Cells.mem_erase {l : List (Nat × α)} {a : Nat} {c : Nat × α} (h : c ∈ Cells.erase l a) : c ∈ l := by
  induction l with
  | nil => simp [Cells.erase] at h
  | cons d rest ih =>
    obtain ⟨k, u⟩ := d
    simp only [Cells.erase] at h
    split at h
    · simp [h]
    · simp only [List.mem_cons] at h ⊢
      exact h.imp id ih

theorem LabelTable.wf_write {l : List (Nat × LtEntry)} (lid : Nat) (e : LtEntry) (h : LabelTable.wf l = true) :
    LabelTable.wf (LabelTable.write l lid e) = true := by
  simp only [LabelTable.wf, Bool.and_eq_true, List.all_eq_true, decide_eq_true_eq] at h ⊢
  unfold LabelTable.write
  split
  · exact ⟨Cells.risingFrom_erase lid h.1, fun c hc => h.2 c (Cells.mem_erase hc)⟩
  · refine ⟨Cells.risingFrom_write e (Nat.zero_le _) h.1, fun c hc => ?_⟩
    rcases Cells.mem_write hc with hc | hc
    · exact h.2 c hc
    · simpa [hc]

theorem Memory.wf_reset : Memory.wf State.reset.imem = true := rfl

theorem LabelTable.wf_reset : LabelTable.wf State.reset.lt = true := rfl

/-! ### Registers -/

@[simp] theorem State.reg_setReg_same (s : State) (r : Reg) (v : Word) : (s.setReg r v).reg r = v := by
  simp [State.reg]

theorem State.reg_setReg_other (s : State) {r q : Reg} (v : Word) (h : q ≠ r) : (s.setReg r v).reg q = s.reg q := by
  have h' : ¬ (r : Nat) = (q : Nat) := fun e => h (Fin.ext e.symm)
  simp [State.reg, h']

theorem State.reg_setReg (s : State) (r q : Reg) (v : Word) : (s.setReg r v).reg q = if q = r then v else s.reg q := by
  split
  · subst_vars; simp
  · exact State.reg_setReg_other s v ‹_›

/-- A register read depends on the register file only. -/
theorem State.reg_congr {s t : State} (h : t.x = s.x) (r : Reg) : t.reg r = s.reg r := by simp [State.reg, h]

@[simp] theorem State.reg_setZf (s : State) (b : Bool) (r : Reg) : (s.setZf b).reg r = s.reg r := rfl
@[simp] theorem State.reg_jumpTo (s : State) (t : Nat) (r : Reg) : (s.jumpTo t).reg r = s.reg r := rfl
@[simp] theorem State.reg_raise (s : State) (c : Cause) (w : IWord) (r : Reg) : (s.raise c w).reg r = s.reg r := rfl

/-! ### Memory reads depend on the memories (and the free values) only -/

theorem State.imemByte_congr {s t : State} (hm : t.imem = s.imem) (he : t.epoch = s.epoch) (a : Nat) :
    t.imemByte a = s.imemByte a := by simp [State.imemByte, hm, he]

theorem State.ifetch_congr {s t : State} (hm : t.imem = s.imem) (he : t.epoch = s.epoch) (i : Nat) :
    t.ifetch i = s.ifetch i := by simp [State.ifetch, State.imemByte_congr hm he]

theorem State.ltRead_congr {s t : State} (h : t.lt = s.lt) (lid : Nat) : t.ltRead lid = s.ltRead lid := by
  simp [State.ltRead, h]

/-- LOAD_LT replaces one entry and no other. -/
theorem State.ltRead_loadLabel (s : State) (lid t l : Nat) :
    (s.loadLabel lid t).ltRead l = if l = lid then { valid := true, target := t } else s.ltRead l := by
  simp only [State.ltRead, State.loadLabel_lt, LabelTable.write, LtEntry.empty, LtEntry.mk.injEq, Bool.true_eq_false, false_and,
    if_false, Cells.read_write]
  split <;> rfl

/-- A byte after a word is loaded: one of the word's four bytes, or the byte that stood there. -/
theorem Memory.read_writeWord (m : List Host.Cell) (i : Nat) (w : IWord) (a : Nat) :
    Cells.read (Memory.writeWord m i w) a =
      if a / 4 = i then some (byteOfWord w (a % 4)) else Cells.read m a := by
  simp only [Memory.writeWord, Cells.read_write]
  have := Nat.div_add_mod a 4
  have hlt := Nat.mod_lt a (show 4 > 0 by omega)
  by_cases h : a / 4 = i
  · subst h
    have : a % 4 = 0 ∨ a % 4 = 1 ∨ a % 4 = 2 ∨ a % 4 = 3 := by omega
    rcases this with h | h | h | h <;>
    · rw [if_pos rfl, h]
      repeat (first | rw [if_pos (by omega)] | rw [if_neg (by omega)])
  · rw [if_neg h]
    repeat rw [if_neg (by omega)]

/-- The bytes of a word put together again (R58). -/
theorem wordOfBytes_byteOfWord (w : IWord) :
    wordOfBytes (byteOfWord w 0) (byteOfWord w 1) (byteOfWord w 2) (byteOfWord w 3) = w := by
  apply BitVec.eq_of_getLsbD_eq
  intro j hj
  simp only [wordOfBytes, byteOfWord, BitVec.getLsbD_append, BitVec.getLsbD_extractLsb']
  by_cases h0 : j < 8
  · simp [h0]
  · by_cases h1 : j - 8 < 8
    · simp [h0, h1]; congr 1; omega
    · by_cases h2 : j - 8 - 8 < 8
      · simp [h0, h1, h2]; congr 1; omega
      · have h3 : j - 8 - 8 - 8 < 8 := by omega
        simp [h0, h1, h2, h3]; congr 1; omega

/-- LOAD_IMEM replaces one word and no other. -/
theorem State.ifetch_loadWord (s : State) (i j : Nat) (w : IWord) :
    (s.loadWord i w).ifetch j = if j = i then w else s.ifetch j := by
  simp only [State.ifetch, State.imemByte, State.loadWord_imem, State.loadWord_epoch, Memory.read_writeWord]
  have e0 : 4 * j / 4 = j := by omega
  have e1 : (4 * j + 1) / 4 = j := by omega
  have e2 : (4 * j + 2) / 4 = j := by omega
  have e3 : (4 * j + 3) / 4 = j := by omega
  have m0 : 4 * j % 4 = 0 := by omega
  have m1 : (4 * j + 1) % 4 = 1 := by omega
  have m2 : (4 * j + 2) % 4 = 2 := by omega
  have m3 : (4 * j + 3) % 4 = 3 := by omega
  simp only [e0, e1, e2, e3, m0, m1, m2, m3]
  split
  · exact wordOfBytes_byteOfWord w
  · rfl

/-! ### Flag, resolver and jumps -/

@[simp] theorem zeroFlag_eq_true (v : Word) : zeroFlag v = true ↔ v = 0#64 := by simp [zeroFlag]

theorem State.resolve_eq (s : State) (lid : Nat) :
    s.resolve lid = if (s.ltRead lid).valid then some (s.ltRead lid).target else none := rfl

/-- Everything a jump can do (R171 to R173). -/
theorem State.jumpIf_cases (s : State) (taken : Bool) (lid : Nat) :
    ((s.ltRead lid).valid = false ∧ s.jumpIf taken lid = s.raise .unknownLabel (BitVec.ofNat 32 lid)) ∨
    ((s.ltRead lid).valid = true ∧ taken = true ∧ s.jumpIf taken lid = s.jumpTo (s.ltRead lid).target) ∨
    ((s.ltRead lid).valid = true ∧ taken = false ∧ s.jumpIf taken lid = s.jumpTo (s.pc + 1)) := by
  cases hv : (s.ltRead lid).valid <;> cases taken <;> simp [State.jumpIf, State.resolve_eq, hv]

end Sys2Proof.Machine
end

