-- ==== Sys2Proof/Laws/PerInstr.lean ====
section
/-!
SUPPORT. Statements for all instructions, made per instruction: the encoded word carries the instruction's opcode in bits 31 to 27 (R71, R77).
-/

namespace Sys2Proof.Laws.OpcodeField

/-- The opcode field of the encoded word is the opcode of the opcode map. -/
def Statement (i : Instr) : Prop := field (encode i) 31 27 = opcodeOf i

theorem noop : Statement (.noop) := by
  simp [Statement, encode, opcodeOf, field_eq, formatN_toNat]

theorem debug : Statement (.debug) := by
  simp [Statement, encode, opcodeOf, field_eq, formatN_toNat]

theorem zero (rd : Reg) : Statement (.zero rd) := by
  simp [Statement, encode, opcodeOf, field_eq, formatR1_toNat]; omega

theorem mov (rd rs1 : Reg) : Statement (.mov rd rs1) := by
  simp [Statement, encode, opcodeOf, field_eq, formatR2_toNat]; omega

theorem add (rd rs1 rs2 : Reg) : Statement (.add rd rs1 rs2) := by
  simp [Statement, encode, opcodeOf, field_eq, formatR3_toNat]; omega

theorem sub (rd rs1 rs2 : Reg) : Statement (.sub rd rs1 rs2) := by
  simp [Statement, encode, opcodeOf, field_eq, formatR3_toNat]; omega

theorem inc (rd : Reg) : Statement (.inc rd) := by
  simp [Statement, encode, opcodeOf, field_eq, formatR1_toNat]; omega

theorem dec (rd : Reg) : Statement (.dec rd) := by
  simp [Statement, encode, opcodeOf, field_eq, formatR1_toNat]; omega

theorem and (rd rs1 rs2 : Reg) : Statement (.and rd rs1 rs2) := by
  simp [Statement, encode, opcodeOf, field_eq, formatR3_toNat]; omega

theorem or (rd rs1 rs2 : Reg) : Statement (.or rd rs1 rs2) := by
  simp [Statement, encode, opcodeOf, field_eq, formatR3_toNat]; omega

theorem xor (rd rs1 rs2 : Reg) : Statement (.xor rd rs1 rs2) := by
  simp [Statement, encode, opcodeOf, field_eq, formatR3_toNat]; omega

theorem not (rd : Reg) : Statement (.not rd) := by
  simp [Statement, encode, opcodeOf, field_eq, formatR1_toNat]; omega

theorem shl (rd : Reg) (ov : Bool) (sh : Nat) : Statement (.shl rd ov sh) := by
  cases ov <;> simp [Statement, encode, opcodeOf, field_eq, formatSH_toNat] <;> omega

theorem shr (rd : Reg) (ov : Bool) (sh : Nat) : Statement (.shr rd ov sh) := by
  cases ov <;> simp [Statement, encode, opcodeOf, field_eq, formatSH_toNat] <;> omega

theorem jz (lid : Nat) : Statement (.jz lid) := by
  simp [Statement, encode, opcodeOf, field_eq, formatL_toNat]; omega

theorem jnz (lid : Nat) : Statement (.jnz lid) := by
  simp [Statement, encode, opcodeOf, field_eq, formatL_toNat]; omega

theorem j (lid : Nat) : Statement (.j lid) := by
  simp [Statement, encode, opcodeOf, field_eq, formatL_toNat]; omega

end Sys2Proof.Laws.OpcodeField
end

