-- ==== Sys2Proof/Laws/Steps.lean ====
section
/-!
SUPPORT. What an instruction, a step of the cycle, a transaction and a step of the machine can do: one inversion lemma each, which later proofs cite instead of unfolding.
-/

namespace Sys2Proof.Machine

/-- Everything an instruction can do: write a register, with or without the flag; only advance; wait; jump or pass the jump by; or
raise UNKNOWN_LABEL. It always answers a next state. -/
theorem exec_cases {i : Instr} {s : State} {o : Host.Outcome State Fault Refusal} (h : exec i s = o) :
    ∃ t, o = .next t ∧
      ((writesZeroFlag i = true ∧ ∃ rd v, destination i = some rd ∧
          t = ((s.setReg rd v).setZf (zeroFlag v)).jumpTo (s.pc + 1)) ∨
       (writesZeroFlag i = false ∧ ∃ rd v, destination i = some rd ∧ t = (s.setReg rd v).jumpTo (s.pc + 1)) ∨
       (i = .noop ∧ t = s.jumpTo (s.pc + 1)) ∨
       (i = .debug ∧ t = s.awaitHost) ∨
       (∃ lid, (i = .jz lid ∨ i = .jnz lid ∨ i = .j lid) ∧
          (((s.ltRead lid).valid = true ∧ (t = s.jumpTo (s.ltRead lid).target ∨ t = s.jumpTo (s.pc + 1))) ∨
           ((s.ltRead lid).valid = false ∧ t = s.raise .unknownLabel (BitVec.ofNat 32 lid))))) := by
  subst h
  cases i with
  | noop => exact ⟨_, rfl, .inr (.inr (.inl ⟨rfl, rfl⟩))⟩
  | debug => exact ⟨_, rfl, .inr (.inr (.inr (.inl ⟨rfl, rfl⟩)))⟩
  | zero rd | mov rd rs1 | shl rd ov sh | shr rd ov sh => exact ⟨_, rfl, .inr (.inl ⟨rfl, rd, _, rfl, rfl⟩)⟩
  | add rd rs1 rs2 | sub rd rs1 rs2 | inc rd | dec rd | and rd rs1 rs2 | or rd rs1 rs2 | xor rd rs1 rs2 | not rd =>
    exact ⟨_, rfl, .inl ⟨rfl, rd, _, rfl, rfl⟩⟩
  | jz lid | jnz lid | j lid =>
    refine ⟨_, rfl, .inr (.inr (.inr (.inr ⟨lid, by simp, ?_⟩)))⟩
    rcases State.jumpIf_cases s _ lid with ⟨hv, e⟩ | ⟨hv, _, e⟩ | ⟨hv, _, e⟩
    · exact .inr ⟨hv, e⟩
    · exact .inl ⟨hv, .inl e⟩
    · exact .inl ⟨hv, .inr e⟩

/-- Everything a step of the instruction cycle can do (R34, R207). -/
theorem cycle_cases {s : State} {o : Host.Outcome State Fault Refusal} (h : cycle s = o) :
    (s.pc = s.icount ∧ o = .next s.halt) ∨
    (s.icount < s.pc ∧ o = .next (s.raise .pcRange 0#32)) ∨
    (s.pc < s.icount ∧ (∃ e, decode (s.ifetch s.pc) = .error e) ∧ o = .next (s.raise .illegalInstruction (s.ifetch s.pc))) ∨
    (s.pc < s.icount ∧ ∃ i, decode (s.ifetch s.pc) = .ok i ∧ exec i s = o) := by
  subst h
  unfold cycle fetchDecodeExecute
  split
  · exact .inl ⟨‹_›, rfl⟩
  · split
    · exact .inr (.inl ⟨‹_›, rfl⟩)
    · have hlt : s.pc < s.icount := by omega
      cases hd : decode (s.ifetch s.pc) with
      | error e => exact .inr (.inr (.inl ⟨hlt, ⟨e, rfl⟩, rfl⟩))
      | ok i => exact .inr (.inr (.inr ⟨hlt, i, rfl, rfl⟩))

/-- A transaction reaches the block exactly where R45 lists it. -/
theorem HostTx.outside_eq_none (c : Params) (tx : HostTx) : HostTx.outside c tx = none ↔ TxListed c tx := by
  cases tx with
  | loadImem i w =>
    unfold HostTx.outside TxListed Params.imemWords
    by_cases h : i < 2 ^ c.pcWidth - 1 <;> simp [h]
  | loadLt lid t =>
    show (if 2 ^ 24 ≤ lid then some Fault.labelIdOutside
      else if t < 2 ^ c.pcWidth then none else some Fault.labelTargetTooWide) = none ↔ lid < 2 ^ 24 ∧ t < 2 ^ c.pcWidth
    by_cases h : 2 ^ 24 ≤ lid
    · rw [if_pos h]
      exact ⟨fun e => (by cases e), fun e => absurd e.1 (by omega)⟩
    · rw [if_neg h]
      by_cases h' : t < 2 ^ c.pcWidth
      · exact ⟨fun _ => ⟨by omega, h'⟩, fun _ => if_pos h'⟩
      · rw [if_neg h']
        exact ⟨fun e => (by cases e), fun e => absurd e.2 h'⟩
  | setIcount n =>
    unfold HostTx.outside TxListed
    by_cases h : n ≤ 2 ^ c.pcWidth - 1 <;> simp [h]
  | reset | preload r v | start | resume | inputFail | read => simp [HostTx.outside, TxListed]

/-- Everything a transaction can do (R45). -/
theorem transact_cases {tx : HostTx} {s : State} {o : Host.Outcome State Fault Refusal} (h : transact tx s = o) :
    (∃ f, HostTx.outside s.cfg tx = some f ∧ o = .fault f) ∨
    (HostTx.outside s.cfg tx = none ∧ HostTx.allowedIn tx s.run = true ∧ o = .next (s.applyTx tx)) ∨
    (HostTx.outside s.cfg tx = none ∧ HostTx.allowedIn tx s.run = false ∧ o = .next s) := by
  subst h
  unfold transact
  cases ho : HostTx.outside s.cfg tx with
  | some f => exact .inl ⟨f, rfl, rfl⟩
  | none => cases ha : HostTx.allowedIn tx s.run <;> simp

/-- Everything a step of the machine can do: a transaction, a step of the cycle in RUN, or waiting. -/
theorem step_cases {s : State} {o : Host.Outcome State Fault Refusal} (h : step s = o) :
    (∃ tx rest, s.host = .issue tx :: rest ∧ transact tx { s with host := rest } = o) ∨
    (∃ rest, (s.host = .quiet :: rest ∨ (s.host = [] ∧ rest = [])) ∧
      ((s.run = .run ∧ cycle { s with host := rest } = o) ∨ (s.run ≠ .run ∧ o = .next { s with host := rest }))) := by
  subst h
  unfold step advance
  have key : ∀ u : State, (u.run = .run ∧ cycle u = blockStep u) ∨ (u.run ≠ .run ∧ blockStep u = .next u) := by
    intro u
    unfold blockStep
    cases u.run <;> simp
  match hh : s.host with
  | [] =>
    refine .inr ⟨[], .inr ⟨rfl, rfl⟩, ?_⟩
    have e : ({ s with host := [] } : State) = s := by simp [← hh]
    rw [e]
    exact key s
  | .quiet :: rest => exact .inr ⟨rest, .inl rfl, key { s with host := rest }⟩
  | .issue tx :: rest => exact .inl ⟨tx, rest, rfl, rfl⟩

/-- Two next states that are the same outcome are equal. -/
theorem next_inj {s t : State} (h : (Host.Outcome.next s : Host.Outcome State Fault Refusal) = .next t) : t = s := by
  injection h with h
  exact h.symm

/-- Everything a step that answers a next state can have done: a transaction of R45, waiting, or one row of R207. -/
theorem step_next_cases {s t : State} (h : step s = .next t) :
    (∃ tx rest, s.host = .issue tx :: rest ∧ TxListed s.cfg tx ∧
      ((HostTx.allowedIn tx s.run = true ∧ t = State.applyTx { s with host := rest } tx) ∨
       (HostTx.allowedIn tx s.run = false ∧ t = { s with host := rest }))) ∨
    (∃ rest, QuietThen s rest ∧
      ((s.run ≠ .run ∧ t = { s with host := rest }) ∨
       (s.run = .run ∧ s.pc = s.icount ∧ t = State.halt { s with host := rest }) ∨
       (s.run = .run ∧ s.icount < s.pc ∧ t = State.raise { s with host := rest } .pcRange 0#32) ∨
       (s.run = .run ∧ s.pc < s.icount ∧ (∃ e, decode (s.ifetch s.pc) = .error e) ∧
         t = State.raise { s with host := rest } .illegalInstruction (s.ifetch s.pc)) ∨
       (s.run = .run ∧ s.pc < s.icount ∧ ∃ i, decode (s.ifetch s.pc) = .ok i ∧ exec i { s with host := rest } = .next t))) := by
  rcases step_cases h with ⟨tx, rest, hh, h⟩ | ⟨rest, hh, ⟨hr, h⟩ | ⟨hr, e⟩⟩
  · rcases transact_cases h with ⟨f, _, e⟩ | ⟨ho, ha, e⟩ | ⟨ho, ha, e⟩
    · cases e
    · exact .inl ⟨tx, rest, hh, (HostTx.outside_eq_none _ _).1 ho, .inl ⟨ha, next_inj e.symm⟩⟩
    · exact .inl ⟨tx, rest, hh, (HostTx.outside_eq_none _ _).1 ho, .inr ⟨ha, next_inj e.symm⟩⟩
  · refine .inr ⟨rest, hh, .inr ?_⟩
    rcases cycle_cases h with ⟨hp, e⟩ | ⟨hp, e⟩ | ⟨hp, he, e⟩ | ⟨hp, i, hd, e⟩
    · exact .inl ⟨hr, hp, next_inj e.symm⟩
    · exact .inr (.inl ⟨hr, hp, next_inj e.symm⟩)
    · exact .inr (.inr (.inl ⟨hr, hp, he, next_inj e.symm⟩))
    · exact .inr (.inr (.inr ⟨hr, hp, i, hd, e⟩))
  · exact .inr ⟨rest, hh, .inl ⟨hr, next_inj e.symm⟩⟩

/-- `exec_cases`, of a given next state. -/
theorem exec_next_cases {i : Instr} {s t : State} (h : exec i s = .next t) :
    (writesZeroFlag i = true ∧ ∃ rd v, destination i = some rd ∧
      t = ((s.setReg rd v).setZf (zeroFlag v)).jumpTo (s.pc + 1)) ∨
    (writesZeroFlag i = false ∧ ∃ rd v, destination i = some rd ∧ t = (s.setReg rd v).jumpTo (s.pc + 1)) ∨
    (i = .noop ∧ t = s.jumpTo (s.pc + 1)) ∨
    (i = .debug ∧ t = s.awaitHost) ∨
    (∃ lid, (i = .jz lid ∨ i = .jnz lid ∨ i = .j lid) ∧
      (((s.ltRead lid).valid = true ∧ (t = s.jumpTo (s.ltRead lid).target ∨ t = s.jumpTo (s.pc + 1))) ∨
       ((s.ltRead lid).valid = false ∧ t = s.raise .unknownLabel (BitVec.ofNat 32 lid)))) := by
  obtain ⟨u, e, hu⟩ := exec_cases h
  rw [next_inj e] at hu
  exact hu

/-- With the host quiet, a step is what the block does by itself. -/
theorem step_quiet {s : State} {rest : List HostMove} (h : QuietThen s rest) : step s = blockStep { s with host := rest } := by
  unfold step advance
  rcases h with h | ⟨h, rfl⟩
  · rw [h]
  · rw [h, show ({ s with host := [] } : State) = s by rw [← h]]

end Sys2Proof.Machine
end

