-- ==== Sys2Proof/Tests/Slice0.lean ====
section
/-!
SUPPORT. Small tests of one step each, with expected values from the spec's rules and test vectors (95_test_vectors.md), and for each statement with hypotheses a witness that meets them.
-/

namespace Sys2Proof.Tests

open Sys2Proof Sys2Proof.Machine

/-! ### Helpers -/

/-- The next state of an outcome. -/
def after : Host.Outcome State Fault Refusal → Option State
  | .next t => some t
  | .fault _ => none
  | .refused _ => none

/-- A field of the next state. -/
def afterIs (o : Host.Outcome State Fault Refusal) (p : State → Bool) : Bool := (after o).any p

theorem exists_of_afterIs {o : Host.Outcome State Fault Refusal} {p : State → Bool} (h : afterIs o p = true) :
    ∃ t, o = .next t ∧ p t = true := by
  cases o with
  | next t => exact ⟨t, rfl, by simpa [afterIs, after] using h⟩
  | fault f => simp [afterIs, after] at h
  | refused r => simp [afterIs, after] at h

/-- A running block at index `pc` of N = 10 with the label table of the vectors J1 to J10. -/
def running (pc : Nat) (zf : Bool) : State :=
  { State.reset with run := .run, icount := 10, pc := pc, zf := zf, lt := [(0, ⟨true, 0⟩), (1, ⟨true, 7⟩)] }

/-- The same with two registers set. -/
def regs2 (r : Reg) (v : Word) (q : Reg) (u : Word) (zf : Bool) : State := ((running 0 zf).setReg r v).setReg q u

/-- The same with one register set. -/
def regs1 (r : Reg) (v : Word) (zf : Bool) : State := (running 0 zf).setReg r v

/-- The block with the other shift policy. -/
def underZero (s : State) : State := { s with cfg := { s.cfg with shiftPolicy := .zero } }

/-- A running block with N = `n`, at `pc`, with a word loaded there. -/
def atWord (n pc : Nat) (w : IWord) : State := { (running pc false).loadWord pc w with icount := n }

/-- The block after RESET with one coming move of the host, in a given run state. -/
def facing (r : RunState) (tx : HostTx) : State := { running 2 false with run := r, host := [.issue tx, .quiet] }

/-! ### WellFormed refuses an operand that does not fit its field -/

theorem test_wellFormed_shift_64 : (Instr.shl 0 false 64).wellFormed = false := by decide
theorem test_wellFormed_shr_64 : (Instr.shr 0 true 64).wellFormed = false := by decide
theorem test_wellFormed_lid : (Instr.jz 0x1000000).wellFormed = false := by decide
theorem test_wellFormed_lid_jnz_j : ((Instr.jnz 0x1000000).wellFormed || (Instr.j 0x1000000).wellFormed) = false := by decide
theorem test_wellFormed_largest : ((Instr.shl 7 true 63).wellFormed && (Instr.j 0xFFFFFF).wellFormed) = true := by decide

/-! ### Every constructor's decoding, from words written out bit by bit (R72, R77; vectors E1 to E18) -/

theorem test_decode_noop : decode 0b00000000000000000000000000000000#32 = .ok .noop := by decide
theorem test_decode_debug : decode 0b00001000000000000000000000000000#32 = .ok .debug := by decide
theorem test_decode_zero : decode 0b00010111000000000000000000000000#32 = .ok (.zero 7) := by decide
theorem test_decode_mov : decode 0b00011111000000000000000000000000#32 = .ok (.mov 7 0) := by decide
theorem test_decode_mov_rs1 : decode 0b00011001010000000000000000000000#32 = .ok (.mov 1 2) := by decide
theorem test_decode_add : decode 0b00100111110101000000000000000000#32 = .ok (.add 7 6 5) := by decide
theorem test_decode_sub : decode 0b00101011001010000000000000000000#32 = .ok (.sub 3 1 2) := by decide
theorem test_decode_inc : decode 0b00110101000000000000000000000000#32 = .ok (.inc 5) := by decide
theorem test_decode_dec : decode 0b00111111000000000000000000000000#32 = .ok (.dec 7) := by decide
theorem test_decode_and : decode 0b01000100101110000000000000000000#32 = .ok (.and 4 5 6) := by decide
theorem test_decode_or : decode 0b01001001001001000000000000000000#32 = .ok (.or 1 1 1) := by decide
theorem test_decode_xor : decode 0b01010011011011000000000000000000#32 = .ok (.xor 3 3 3) := by decide
theorem test_decode_not : decode 0b01011000000000000000000000000000#32 = .ok (.not 0) := by decide
theorem test_decode_shl : decode 0b01100001000000000000000001000001#32 = .ok (.shl 1 true 1) := by decide
theorem test_decode_shr : decode 0b01101010000000000000000000111111#32 = .ok (.shr 2 false 63) := by decide
theorem test_decode_jz : decode 0b01110000000000000000000000000010#32 = .ok (.jz 2) := by decide
theorem test_decode_jnz : decode 0b01111000000100100011010001010110#32 = .ok (.jnz 0x123456) := by decide
theorem test_decode_j : decode 0b10000000111111111111111111111111#32 = .ok (.j 0xFFFFFF) := by decide

/-- Illegal words E19 to E27 and E30. -/
theorem test_decode_opcode_17_31 :
    decode 0x88000000#32 = .error .opcodeUnassigned ∧ decode 0xF8000000#32 = .error .opcodeUnassigned := by decide
theorem test_decode_reserved :
    decode 0x00000001#32 = .error .reservedBitsSet ∧ decode 0x08000100#32 = .error .reservedBitsSet ∧
    decode 0x30000001#32 = .error .reservedBitsSet ∧ decode 0x18100000#32 = .error .reservedBitsSet ∧
    decode 0x20020000#32 = .error .reservedBitsSet ∧ decode 0x61000080#32 = .error .reservedBitsSet ∧
    decode 0x71000000#32 = .error .reservedBitsSet ∧ decode 0x07FFFFFF#32 = .error .reservedBitsSet := by decide

/-- R105, from assembly to words. -/
theorem test_encode :
    encode (.add 0 1 2) = 0x20280000#32 ∧ encode (.mov 7 0) = 0x1F000000#32 ∧ encode (.shl 7 true 63) = 0x6700007F#32 ∧
    encode (.jnz 0x123456) = 0x78123456#32 := by decide

/-- The image of a word is little-endian (R58), and three bytes are no word. -/
theorem test_bytes : bytesOfWord 0x78123456#32 = [0x56#8, 0x34#8, 0x12#8, 0x78#8] := by decide
theorem test_decodeBytes :
    decodeBytes [0x41#8, 0x00#8, 0x00#8, 0x61#8, 0xFF#8] = .ok (.shl 1 true 1, [0xFF#8]) ∧
    decodeBytes [0x41#8, 0x00#8, 0x00#8] = .error .imageTooShort := by decide
theorem test_decodeTableWord : decodeTableWord 32 0x78123456 = some (.jnz 0x123456) ∧ decodeTableWord 32 0x88000000 = none := by
  decide

/-! ### Instructions (sections 2.3 to 2.8 of the vectors) -/

/-- N1. -/
theorem test_noop : afterIs (exec .noop (running 3 true)) (fun t => t.pc = 4 && t.zf) = true := by decide
/-- N2. -/
theorem test_debug : afterIs (exec .debug (regs1 0 5 false)) (fun t => t.run = .debugWait && t.pc = 0 && t.reg 0 = 5) = true := by
  decide
/-- M1. -/
theorem test_zero : afterIs (exec (.zero 4) (regs1 4 9 false)) (fun t => t.reg 4 = 0 && !t.zf) = true := by decide
/-- M3, M4. -/
theorem test_mov : afterIs (exec (.mov 1 2) (regs2 1 0 2 42 true)) (fun t => t.reg 1 = 42 && t.reg 2 = 42 && t.zf) = true := by
  decide
theorem test_mov_zero : afterIs (exec (.mov 1 2) (regs2 1 5 2 0 false)) (fun t => t.reg 1 = 0 && !t.zf) = true := by decide
/-- AR2, AR5. -/
theorem test_add_wraps :
    afterIs (exec (.add 0 1 2) (regs2 1 0xFFFFFFFFFFFFFFFF 2 1 false)) (fun t => t.reg 0 = 0 && t.zf) = true := by decide
theorem test_add_self : afterIs (exec (.add 0 0 0) (regs1 0 5 true)) (fun t => t.reg 0 = 10 && !t.zf) = true := by decide
/-- AR8, AR12. -/
theorem test_sub_wraps :
    afterIs (exec (.sub 0 1 2) (regs2 1 0 2 1 true)) (fun t => t.reg 0 = 0xFFFFFFFFFFFFFFFF && !t.zf) = true := by decide
theorem test_sub_order : afterIs (exec (.sub 0 0 1) (regs2 0 9 1 4 true)) (fun t => t.reg 0 = 5 && !t.zf) = true := by decide
/-- AR14, AR13. -/
theorem test_inc_wraps :
    afterIs (exec (.inc 5) (regs1 5 0xFFFFFFFFFFFFFFFF false)) (fun t => t.reg 5 = 0 && t.zf) = true := by decide
theorem test_inc : afterIs (exec (.inc 5) (regs1 5 41 true)) (fun t => t.reg 5 = 42 && !t.zf && t.pc = 1) = true := by decide
/-- AR17, AR16. -/
theorem test_dec_wraps :
    afterIs (exec (.dec 0) (regs1 0 0 true)) (fun t => t.reg 0 = 0xFFFFFFFFFFFFFFFF && !t.zf) = true := by decide
theorem test_dec_to_zero : afterIs (exec (.dec 0) (regs1 0 1 false)) (fun t => t.reg 0 = 0 && t.zf) = true := by decide
/-- L1, L2. -/
theorem test_and : afterIs (exec (.and 0 1 2) (regs2 1 0xF0F0 2 0x0FF0 true)) (fun t => t.reg 0 = 0xF0 && !t.zf) = true := by
  decide
theorem test_and_zero : afterIs (exec (.and 0 1 2) (regs2 1 0xFF00 2 0xFF false)) (fun t => t.reg 0 = 0 && t.zf) = true := by
  decide
/-- L4, L6. -/
theorem test_or : afterIs (exec (.or 0 1 2) (regs2 1 0xF0 2 0x0F true)) (fun t => t.reg 0 = 0xFF && !t.zf) = true := by decide
theorem test_or_zero : afterIs (exec (.or 1 1 1) (regs1 1 0 false)) (fun t => t.reg 1 = 0 && t.zf) = true := by decide
/-- L7, L8. -/
theorem test_xor : afterIs (exec (.xor 0 1 2) (regs2 1 0xFF 2 0x0F true)) (fun t => t.reg 0 = 0xF0 && !t.zf) = true := by decide
theorem test_xor_self : afterIs (exec (.xor 3 3 3) (regs1 3 0xDEADBEEF false)) (fun t => t.reg 3 = 0 && t.zf) = true := by decide
/-- L12, L11. -/
theorem test_not :
    afterIs (exec (.not 0) (regs1 0 0x0123456789ABCDEF true)) (fun t => t.reg 0 = 0xFEDCBA9876543210 && !t.zf) = true := by decide
theorem test_not_ones :
    afterIs (exec (.not 0) (regs1 0 0xFFFFFFFFFFFFFFFF false)) (fun t => t.reg 0 = 0 && t.zf) = true := by decide
/-- H7 under both policies. -/
theorem test_shl_65_mod64 : afterIs (exec (.shl 1 true 1) (regs1 1 5 true)) (fun t => t.reg 1 = 10 && t.zf) = true := by decide
theorem test_shl_65_zero :
    afterIs (exec (.shl 1 true 1) (underZero (regs1 1 5 false))) (fun t => t.reg 1 = 0 && !t.zf) = true := by decide
/-- H9 and H14. -/
theorem test_shr_fill :
    afterIs (exec (.shr 0 false 4) (regs1 0 0xFFFFFFFFFFFFFFFF true)) (fun t => t.reg 0 = 0x0FFFFFFFFFFFFFFF && t.zf) = true := by
  decide
theorem test_shr_72_zero :
    afterIs (exec (.shr 0 true 8) (underZero (regs1 0 0x100 false))) (fun t => t.reg 0 = 0 && !t.zf) = true := by decide
/-- J1, J8. -/
theorem test_jz_taken : afterIs (exec (.jz 0) (running 3 true)) (fun t => t.pc = 0 && t.zf) = true := by decide
theorem test_jz_unknown_not_taken :
    afterIs (exec (.jz 2) (running 5 false)) (fun t => t.run = .faulted && t.cause = .unknownLabel && t.pc = 5) = true := by decide
/-- J3, J4. -/
theorem test_jnz_taken : afterIs (exec (.jnz 1) (running 3 false)) (fun t => t.pc = 7) = true := by decide
theorem test_jnz_not_taken : afterIs (exec (.jnz 1) (running 3 true)) (fun t => t.pc = 4) = true := by decide
/-- J5, J7. -/
theorem test_j : afterIs (exec (.j 1) (running 5 false)) (fun t => t.pc = 7) = true := by decide
theorem test_j_unknown :
    afterIs (exec (.j 2) (running 5 false)) (fun t => t.run = .faulted && t.causeWord = 2 && t.faultPc = 5 && t.faultInfo = 2) = true := by
  decide

/-! ### The cycle and the host port (section 2.9, and N3, N4) -/

/-- C2. -/
theorem test_halt_at_zero : afterIs (step { State.reset with run := .run }) (fun t => t.run = .halted && t.pc = 0) = true := by decide
/-- C3. -/
theorem test_pc_range :
    afterIs (step (running 12 false)) (fun t => t.run = .faulted && t.causeWord = 3 && t.faultPc = 12 && t.faultInfo = 0) = true := by
  decide
/-- C5. -/
theorem test_illegal :
    afterIs (step (atWord 10 0 0x88000000#32)) (fun t => t.causeWord = 1 && t.faultPc = 0 && t.faultInfo = 0x88000000 && t.pc = 0) =
      true := by decide
/-- N3. -/
theorem test_resume : afterIs (step (facing .debugWait .resume)) (fun t => t.run = .run && t.pc = 3) = true := by decide
/-- N4. -/
theorem test_input_fail :
    afterIs (step (facing .debugWait .inputFail)) (fun t => t.causeWord = 4 && t.faultPc = 2 && t.faultInfo = 0 && t.statusWord = 4) =
      true := by decide
/-- C6. -/
theorem test_reset_clears_preload :
    afterIs (step { regs1 0 3 true with host := [.issue .reset] }) (fun t => t.reg 0 = 0 && !t.zf && t.run = .idle && t.lt = []) = true := by
  decide
theorem test_read :
    afterIs (step (facing .halted .read)) (fun t => t.reply.any (fun v => v.pc = 2 && v.status = 3 && v.icount = 10)) = true := by decide
theorem test_load_outside_idle_does_nothing :
    afterIs (step (facing .halted (.loadImem 0 1#32))) (fun t => t.imem = [] && t.run = .halted) = true := by decide
theorem test_wait_is_no_fault :
    afterIs (step { running 2 false with run := .debugWait }) (fun t => t = { running 2 false with run := .debugWait }) = true := by decide
theorem test_withFetchWord :
    afterIs (step (State.reset.withFetchWord 32 0x35000000)) (fun t => t.reg 5 = 1 && t.pc = 1 && t.run = .run) = true := by decide

/-! ### Memories -/

theorem test_memory_canonical : Memory.wf (Memory.writeWord (Memory.writeWord [] 1 0#32) 0 1#32) = true := by decide
theorem test_memory_order_forgotten :
    Memory.writeWord (Memory.writeWord [] 1 7#32) 0 9#32 = Memory.writeWord (Memory.writeWord [] 0 9#32) 1 7#32 := by decide
theorem test_labels_not_canonical : LabelTable.wf [(0, LtEntry.empty)] = false := by decide

/-! ### The assembler and the boot (section 2.2 and programs P3, P5) -/

/-- A1, A2. -/
theorem test_asm_add :
    assemble ["ADD R0, R1, R2".toList, "add   r0 , r1 ,r2".toList] = .ok ⟨[0x20280000#32, 0x20280000#32], []⟩ := by decide
/-- A3. -/
theorem test_asm_no_commas : assemble ["add r0 r1 r2".toList] = .error ⟨1, .error .badRegister⟩ := by decide
/-- A4, A6, R95. -/
theorem test_asm_comments :
    assemble ["inc r0 // c ; d # e".toList, "   ; only comment".toList, []] = .ok ⟨[0x30000000#32, 0#32, 0#32], []⟩ := by decide
/-- A7, A8, A9, A10. -/
theorem test_asm_errors :
    assemble ["inc".toList] = .error ⟨1, .error .operandCount⟩ ∧ assemble ["inc r0, r1".toList] = .error ⟨1, .error .operandCount⟩ ∧
    assemble ["debug r0".toList] = .error ⟨1, .error .operandCount⟩ ∧
    assemble [[], "shl r0, 18446744073709551616".toList] = .error ⟨2, .error .badImmediate⟩ := by decide
/-- A11, A13, A14, A15, S9. -/
theorem test_asm_garbage_and_refusals :
    assemble ["frobnicate r0".toList] = .error ⟨1, .error .garbageInstruction⟩ ∧
    assemble ["inc r07".toList] = .ok ⟨[0x37000000#32], []⟩ ∧
    assemble ["inc r0,".toList] = .error ⟨1, .refused .emptyOperand⟩ ∧
    assemble ["loop: inc r0".toList] = .error ⟨1, .refused .labelLineForm⟩ ∧
    assemble ["mov r0, r9".toList] = .error ⟨1, .error .badRegister⟩ := by decide
/-- P5: the last declaration wins; P3: a label that is only referenced has no entry. -/
theorem test_asm_last_wins :
    assemble ["j a".toList, "a:".toList, "inc r0".toList, "a:".toList, "inc r1".toList] =
      .ok ⟨[0x80000000#32, 0#32, 0x30000000#32, 0#32, 0x31000000#32], [(0, 3)]⟩ := by decide
theorem test_asm_lids :
    assemble ["j fwd".toList, "j missing".toList, "fwd:".toList] = .ok ⟨[0x80000000#32, 0x80000001#32, 0#32], [(0, 2)]⟩ := by decide
/-- S7, and R233: a register named twice. -/
theorem test_preloads :
    preloadsOf [(3, 5)] = some [(3, 5)] ∧ preloadsOf [(3, -1)] = some [(3, 0xFFFFFFFFFFFFFFFF)] ∧ preloadsOf [(3, 5), (3, 6)] = none ∧
    preloadsOf [(0, 18446744073709551616)] = none := by decide
theorem test_bootTxs :
    bootTxs ⟨[0x80000000#32, 0#32], [(0, 1)]⟩ [(3, 5)] =
      [.setIcount 2, .loadImem 0 0x80000000#32, .loadImem 1 0#32, .loadLt 0 1, .preload 3 5, .start] := by decide

/-! ### Witnesses: concrete states and operands that meet the hypotheses of each statement, clause by clause -/

theorem witness_ShlShiftsLeftUnderThePolicy :
    (63 < 64) ∧ ((underZero (running 0 false)).cfg.shiftPolicy = .zero) ∧ (running 0 false).cfg.shiftPolicy ≠ .zero := by decide

theorem witness_ShrShiftsRightUnderThePolicy :
    (0 < 64) ∧ ((underZero (running 0 true)).cfg.shiftPolicy = .zero) ∧ (running 0 true).cfg.shiftPolicy ≠ .zero := by decide

/-- Label 1 has an entry, and the largest identifier has none; both with `zf` set and clear. -/
theorem witness_JzResolvesThenJumpsOnZero :
    (1 < 2 ^ 24 ∧ ((running 3 true).ltRead 1).valid = true ∧ (running 3 true).zf = true ∧ (running 3 false).zf = false) ∧
    (0xFFFFFF < 2 ^ 24 ∧ ((running 3 true).ltRead 0xFFFFFF).valid = false) := by decide

theorem witness_JnzResolvesThenJumpsOnNonzero :
    (0 < 2 ^ 24 ∧ ((running 3 false).ltRead 0).valid = true ∧ (running 3 false).zf = false ∧ (running 3 true).zf = true) ∧
    (0xFFFFFF < 2 ^ 24 ∧ ((running 3 false).ltRead 0xFFFFFF).valid = false) := by decide

theorem witness_JResolvesThenJumpsAlways :
    (1 < 2 ^ 24 ∧ ((running 5 false).ltRead 1).valid = true) ∧ (2 < 2 ^ 24 ∧ ((running 5 false).ltRead 2).valid = false) := by decide

theorem witness_ShifterFollowsThePolicyOnAmounts :
    (18446744073709551615 : Nat) < 2 ^ 64 ∧ (64 : Nat) < 2 ^ 64 ∧ (63 : Nat) < 2 ^ 64 := by decide

theorem witness_OnlyTheEightWriteTheZeroFlag :
    (∃ t, exec (.xor 3 3 3) (running 0 false) = .next t) ∧ writesZeroFlag (.xor 3 3 3) = true ∧
    (∃ t, exec (.zero 3) (running 0 false) = .next t) ∧ writesZeroFlag (.zero 3) = false := ⟨⟨_, rfl⟩, rfl, ⟨_, rfl⟩, rfl⟩

theorem witness_OnlyTheDestinationRegisterChanges :
    (∃ t, exec (.add 0 1 2) (running 0 false) = .next t) ∧ destination (.add 0 1 2) ≠ some 7 := ⟨⟨_, rfl⟩, by decide⟩

theorem witness_PcAdvancesByOneOrToTheTarget :
    (∃ t, exec .debug (running 0 false) = .next t) ∧ (∃ t, exec (.jz 0) (running 3 true) = .next t) ∧
    (∃ t, exec (.j 2) (running 3 true) = .next t) ∧ (∃ t, exec (.inc 0) (running 3 true) = .next t) :=
  ⟨⟨_, rfl⟩, ⟨_, rfl⟩, ⟨_, rfl⟩, ⟨_, rfl⟩⟩

theorem witness_IncAndDecAreAddAndSubByOne : (regs2 0 0xFFFFFFFFFFFFFFFF 1 1 false).reg 1 = 1#64 := by decide

theorem witness_DecodeOfEncodeIsTheInstruction :
    (Instr.shr 7 true 63).wellFormed = true ∧ (Instr.jnz 0xFFFFFF).wellFormed = true := by decide

theorem witness_EncodeOfDecodeIsTheWord : decode 0x6700007F#32 = .ok (.shl 7 true 63) := by decide

theorem witness_StepRunsTheDecodedInstruction :
    QuietThen (atWord 10 9 0x35000000#32) [] ∧ (atWord 10 9 0x35000000#32).run = .run ∧
    (atWord 10 9 0x35000000#32).pc < (atWord 10 9 0x35000000#32).icount ∧
    decode ((atWord 10 9 0x35000000#32).ifetch 9) = .ok (.inc 5) := ⟨.inr ⟨rfl, rfl⟩, by decide, by decide, by decide⟩

theorem witness_StepRunsThePlacedWord : 0x80FFFFFF < 2 ^ 32 ∧ decode (BitVec.ofNat 32 0x80FFFFFF) = .ok (.j 0xFFFFFF) := by decide

/-- The clause on DEBUG_INPUT_FAILURE, and the four on RUN: `pc` at N, just above N, an illegal word just below N, and a jump to a label without an entry there. -/
theorem witness_StepChecksInOrder :
    (∃ t, step (facing .debugWait .inputFail) = .next t ∧ decide (t.cause = .debugInputFailure) = true) ∧
    (QuietThen (running 10 false) [] ∧ (running 10 false).run = .run ∧ (running 10 false).pc = (running 10 false).icount) ∧
    (QuietThen (running 11 false) [] ∧ (running 11 false).run = .run ∧ (running 11 false).icount < (running 11 false).pc) ∧
    (QuietThen (atWord 10 9 1#32) [] ∧ (atWord 10 9 1#32).run = .run ∧ (atWord 10 9 1#32).pc < (atWord 10 9 1#32).icount ∧
      legalWord ((atWord 10 9 1#32).ifetch 9) = false) ∧
    (QuietThen (atWord 10 9 0x78000002#32) [] ∧ (atWord 10 9 0x78000002#32).run = .run ∧
      decode ((atWord 10 9 0x78000002#32).ifetch 9) = .ok (.jnz 2) ∧ ((atWord 10 9 0x78000002#32).ltRead 2).valid = false) :=
  ⟨exists_of_afterIs (by decide), ⟨.inr ⟨rfl, rfl⟩, by decide, by decide⟩, ⟨.inr ⟨rfl, rfl⟩, by decide, by decide⟩,
    ⟨.inr ⟨rfl, rfl⟩, by decide, by decide, by decide⟩, ⟨.inr ⟨rfl, rfl⟩, by decide, by decide, by decide⟩⟩

theorem witness_FaultEntryRecordsAndFreezes :
    QuietThen ((running 3 false).raise .unknownLabel 2#32) [] ∧ (facing .run .read).host = .issue .read :: [.quiet] :=
  ⟨.inr ⟨rfl, rfl⟩, rfl⟩

/-- One state for each of the four faults. -/
theorem witness_FaultsAreTheFourOfTheTable :
    (∃ t, step (atWord 10 9 1#32) = .next t ∧ decide (t.run = .faulted) = true) ∧
    (∃ t, step (atWord 10 9 0x70000002#32) = .next t ∧ decide (t.run = .faulted) = true) ∧
    (∃ t, step (running 11 false) = .next t ∧ decide (t.run = .faulted) = true) ∧
    (∃ t, step (facing .debugWait .inputFail) = .next t ∧ decide (t.run = .faulted) = true) ∧
    (atWord 10 9 1#32).run ≠ .faulted ∧ (atWord 10 9 0x70000002#32).run ≠ .faulted ∧ (running 11 false).run ≠ .faulted ∧
    (facing .debugWait .inputFail).run ≠ .faulted :=
  ⟨exists_of_afterIs (by decide), exists_of_afterIs (by decide), exists_of_afterIs (by decide), exists_of_afterIs (by decide),
    by decide, by decide, by decide, by decide⟩

theorem witness_FaultsArePrecise :
    (∃ t, step (atWord 10 9 0x70000002#32) = .next t ∧ decide (t.run = .faulted) = true) ∧
    (atWord 10 9 0x70000002#32).run ≠ .faulted := ⟨exists_of_afterIs (by decide), by decide⟩

/-- A table loaded by hand: label 1 at N = 7, and label 1 just above N = 6; each of the three taken jumps. -/
theorem witness_JumpBeyondTheProgramEndsAtTheNextStep :
    (let s := atWord 7 1 0x80000001#32
     QuietThen s [] ∧ QuietThen { s with host := [] } [] ∧ s.run = .run ∧ s.pc < s.icount ∧
       decode (s.ifetch s.pc) = .ok (.j 1) ∧ (s.ltRead 1).valid = true ∧ (s.ltRead 1).target = s.icount) ∧
    (let s := atWord 6 1 0x80000001#32
     s.pc < s.icount ∧ decode (s.ifetch s.pc) = .ok (.j 1) ∧ s.icount < (s.ltRead 1).target) ∧
    (let s := { atWord 7 1 0x70000001#32 with zf := true }
     decode (s.ifetch s.pc) = .ok (.jz 1) ∧ s.zf = true ∧ (s.ltRead 1).target = s.icount) ∧
    (let s := atWord 6 1 0x78000001#32
     decode (s.ifetch s.pc) = .ok (.jnz 1) ∧ s.zf = false ∧ s.icount < (s.ltRead 1).target) :=
  ⟨⟨.inr ⟨rfl, rfl⟩, .inr ⟨rfl, rfl⟩, by decide⟩, by decide⟩

theorem witness_ResetGivesTheResetTable : (facing .run .reset).host = .issue .reset :: [.quiet] := rfl

/-- The block in IDLE as RESET leaves it, facing a transaction. -/
def idleFacing (tx : HostTx) : State := { State.reset with host := [.issue tx] }

theorem reset_consistent : RunStateConsistent State.reset := by
  refine ⟨fun _ => ⟨rfl, rfl⟩, fun h => ?_, fun h => ?_, fun h => ?_, fun _ => ⟨rfl, rfl, rfl⟩⟩ <;> cases h

theorem witness_StartBeginsAtIndexZero :
    (idleFacing .start).host = .issue .start :: [] ∧ (idleFacing .start).run = .idle ∧ RunStateConsistent (idleFacing .start) :=
  ⟨rfl, rfl, reset_consistent⟩

/-- The last index of the instruction memory of a block with PC_WIDTH 2. -/
theorem witness_LoadImemReplacesOneWord :
    let s := { idleFacing (.loadImem 2 7#32) with cfg := ⟨.mod64, 2⟩ }
    s.host = .issue (.loadImem 2 7#32) :: [] ∧ s.run = .idle ∧ 2 < 2 ^ s.cfg.pcWidth - 1 := by decide

/-- The largest identifier and the largest target of a block with PC_WIDTH 2. -/
theorem witness_LoadLtReplacesOneEntry :
    let s := { idleFacing (.loadLt 0xFFFFFF 3) with cfg := ⟨.mod64, 2⟩ }
    s.host = .issue (.loadLt 0xFFFFFF 3) :: [] ∧ s.run = .idle ∧ 0xFFFFFF < 2 ^ 24 ∧ 3 < 2 ^ s.cfg.pcWidth := by decide

/-- The largest count of a block with PC_WIDTH 2. -/
theorem witness_PreloadAndSetIcountWriteOneRegister :
    ((idleFacing (.preload 7 5)).host = .issue (.preload 7 5) :: [] ∧ (idleFacing (.preload 7 5)).run = .idle) ∧
    (let s := { idleFacing (.setIcount 3) with cfg := ⟨.zero, 2⟩ }
     s.host = .issue (.setIcount 3) :: [] ∧ s.run = .idle ∧ 3 ≤ 2 ^ s.cfg.pcWidth - 1) := by decide

/-- N5: the `debug` at N - 1, and the quiet move that follows. -/
theorem witness_ResumeAdvancesPastTheDebug :
    let s := { facing .debugWait .resume with pc := 9 }
    s.host = .issue .resume :: [.quiet] ∧ s.run = .debugWait ∧ s.pc + 1 = s.icount ∧ QuietThen { s with host := [.quiet] } [] ∧
    RunStateConsistent s := by
  refine ⟨rfl, rfl, by decide, .inl rfl, fun h => ?_, fun _ => by decide, fun h => ?_, fun h => ?_, fun _ => ⟨rfl, rfl, rfl⟩⟩ <;>
    cases h

theorem witness_InputFailRaisesAtTheDebug :
    (facing .debugWait .inputFail).host = .issue .inputFail :: [.quiet] ∧ (facing .debugWait .inputFail).run = .debugWait := ⟨rfl, rfl⟩

theorem witness_ReadReturnsTheViewAndChangesNothing :
    (facing .faulted .read).host = .issue .read :: [.quiet] ∧ (facing .faulted .read).run ≠ .run ∧
    (facing .idle .read).run ≠ .run ∧ (facing .debugWait .read).run ≠ .run ∧ (facing .halted .read).run ≠ .run := by decide

/-- One transaction of each clause, outside its states. -/
theorem witness_TransactionsOutsideTheirStatesDoNothing :
    (facing .run (.loadImem 0 1#32)).host = .issue (.loadImem 0 1#32) :: [.quiet] ∧
    TxListed (facing .run (.loadImem 0 1#32)).cfg (.loadImem 0 1#32) ∧
    (idleOnly (.loadImem 0 1#32) = true ∧ (facing .run (.loadImem 0 1#32)).run ≠ .idle) ∧
    (waitOnly .resume = true ∧ (facing .halted .resume).run ≠ .debugWait) ∧ (facing .run .read).run = .run := by
  refine ⟨rfl, ?_, by decide, by decide, rfl⟩
  show 0 < 2 ^ 32 - 1
  decide

/-- The first index outside instruction memory is unlisted; READ is listed. -/
theorem witness_OnlyUnlistedTransactionsStopTheModel :
    (let s := { idleFacing (.loadImem 3 7#32) with cfg := ⟨.mod64, 2⟩ }
     HostIssues s (.loadImem 3 7#32) ∧ ¬ TxListed s.cfg (.loadImem 3 7#32) ∧
       after (step s) = none) ∧ TxListed (running 0 false).cfg .read := by
  refine ⟨⟨⟨[], rfl⟩, ?_, by decide⟩, trivial⟩
  show ¬ (3 < 2 ^ 2 - 1)
  decide

/-- A step for each row of R40's table that leaves a state. -/
theorem witness_RunStateChangesAreTheTabledOnes :
    (∃ t, step (idleFacing .start) = .next t ∧ decide (t.run = .run) = true) ∧
    (∃ t, step (running 10 false) = .next t ∧ decide (t.run = .halted) = true) ∧
    (∃ t, step (atWord 10 9 1#32) = .next t ∧ decide (t.run = .faulted) = true) ∧
    (∃ t, step (atWord 10 9 0x08000000#32) = .next t ∧ decide (t.run = .debugWait) = true) ∧
    (∃ t, step (facing .debugWait .resume) = .next t ∧ decide (t.run = .run) = true) ∧
    (∃ t, step (facing .debugWait .inputFail) = .next t ∧ decide (t.run = .faulted) = true) ∧
    (∃ t, step (facing .faulted .reset) = .next t ∧ decide (t.run = .idle) = true) :=
  ⟨exists_of_afterIs (by decide), exists_of_afterIs (by decide), exists_of_afterIs (by decide), exists_of_afterIs (by decide),
    exists_of_afterIs (by decide), exists_of_afterIs (by decide), exists_of_afterIs (by decide)⟩

theorem no_reset_in_empty {s : State} (h : s.host = []) (tx : HostTx) : ¬ HostIssues s tx := by
  rintro ⟨rest, hr⟩
  simp [h] at hr

theorem witness_WaitAndEndStatesKeepAllState :
    (∃ t, step { running 2 false with run := .debugWait } = .next t) ∧ (∃ t, step { running 10 false with run := .halted } = .next t) ∧
    (∃ t, step { running 2 false with run := .faulted } = .next t) ∧
    (∀ tx, ¬ HostIssues { running 2 false with run := .debugWait } tx) :=
  ⟨⟨_, rfl⟩, ⟨_, rfl⟩, ⟨_, rfl⟩, no_reset_in_empty rfl⟩

theorem witness_ProgramIsImmutableOutsideIdle :
    (∃ t, step (running 10 false) = .next t) ∧ (running 10 false).run ≠ .idle ∧ ¬ HostIssues (running 10 false) .reset :=
  ⟨⟨_, rfl⟩, by decide, no_reset_in_empty rfl _⟩

theorem witness_NoStepChangesTheParameters : ∃ t, step (running 10 false) = .next t := ⟨_, rfl⟩

theorem witness_StepKeepsCanonicalMemories :
    Canonical (atWord 10 9 0x35000000#32) ∧
    ∃ t, step (atWord 10 9 0x35000000#32) = .next t ∧ decide (t.pc = 10) = true :=
  ⟨by constructor <;> decide, exists_of_afterIs (by decide)⟩

theorem witness_ResetFitsItsWidths : 1 ≤ (⟨.zero, 1⟩ : Params).pcWidth := by decide

/-- A block of PC_WIDTH 2 that stands at its `debug` at the last index of a program of the largest length, with RESUME to come. -/
def smallWait : State :=
  { State.reset with run := .debugWait, pc := 2, icount := 3, cfg := ⟨.mod64, 2⟩, host := [.issue .resume] }

theorem witness_StepKeepsWidthsAndRunState :
    FitsWidth smallWait ∧ RunStateConsistent smallWait ∧ ∃ t, step smallWait = .next t ∧ decide (t.pc = 3) = true := by
  refine ⟨⟨by decide, by decide, by decide, by decide, fun _ => (by decide : 0 < 2 ^ 2), ?_, ?_⟩, ⟨?_, fun _ => by decide, ?_, ?_, fun _ => ⟨rfl, rfl, rfl⟩⟩,
    exists_of_afterIs (by decide)⟩
  · intro c hc; cases hc
  · intro c hc; cases hc
  · intro h; cases h
  · intro h; cases h
  · intro h; cases h

/-- A started program of one `inc r5`, within the loader premises. -/
def oneInc : State := { State.reset.loadWord 0 0x35000000#32 with run := .run, icount := 1 }

theorem oneInc_within : WithinProgram oneInc := by
  refine ⟨by decide, ⟨by decide, fun i hi => ?_, fun lid h => ?_⟩, by decide, fun h => (by cases h), by decide⟩
  · have h0 : i = 0 := Nat.lt_one_iff.mp hi
    subst h0
    decide
  · cases h

theorem witness_LoaderPremisesKeepTheRunWithinTheProgram :
    WithinProgram oneInc ∧ ¬ HostIssues oneInc .reset ∧ LegalProgram oneInc ∧ oneInc.cause ≠ .illegalInstruction ∧
    ∃ t, step oneInc = .next t ∧ decide (t.pc = 1) = true := by
  refine ⟨oneInc_within, no_reset_in_empty rfl _, fun i hi => ⟨.inc 5, ?_⟩, by decide, exists_of_afterIs (by decide)⟩
  have h0 : i = 0 := Nat.lt_one_iff.mp hi
  subst h0
  decide

theorem witness_UnloadedMemoryIsNeverSeen :
    WithinProgram oneInc ∧ ¬ HostIssues oneInc .reset ∧ ∃ t, step oneInc = .next t ∧ decide (t.pc = 1) = true :=
  ⟨oneInc_within, no_reset_in_empty rfl _, exists_of_afterIs (by decide)⟩

/-- A program with an instruction, a declaration and a jump, and a launch of it with a preload. -/
def loopText : List (List Char) := ["loop:".toList, "inc r1".toList, "jnz loop".toList, "j gone".toList]

def loopProgram : Program := ⟨[0#32, 0x31000000#32, 0x78000000#32, 0x80000001#32], [(0, 0)]⟩

theorem witness_AssemblerOutputHasOneLegalWordPerLine :
    assemble loopText = .ok loopProgram ∧ loopText[2]? = some "jnz loop".toList ∧ loopProgram.words[2]? = some 0x78000000#32 ∧
    (0, 0) ∈ loopProgram.labels ∧ 0x31000000#32 ∈ loopProgram.words := by decide

/-- Two spellings of one label, in its declaration and in its jump, and the vector A1 itself. -/
theorem witness_AssemblerIgnoresCase :
    let sameButCase : Char → Char → Prop := fun a b =>
      a = b ∨ (65 ≤ a.toNat ∧ a.toNat ≤ 90 ∧ b.toNat = a.toNat + 32) ∨ (65 ≤ b.toNat ∧ b.toNat ≤ 90 ∧ a.toNat = b.toNat + 32)
    List.Forall₂ (List.Forall₂ sameButCase) ["Az:".toList, "J aZ".toList] ["aZ:".toList, "j Az".toList] ∧
    List.Forall₂ sameButCase "add r0, r1, r2".toList "ADD R0, R1, R2".toList := by
  simp +decide

/-- A jump to a declared label, and one to a label that no line declares. -/
theorem witness_JumpsResolveToTheLastDeclaration :
    assemble loopText = .ok loopProgram ∧
    (loopText[2]? = some "jnz loop".toList ∧ parseLine "jnz loop".toList = .ok (.jump .jnz "loop".toList)) ∧
    (loopText[3]? = some "j gone".toList ∧ parseLine "j gone".toList = .ok (.jump .j "gone".toList)) := by decide

theorem witness_BootReachesTheAssembledProgram :
    assemble loopText = .ok loopProgram ∧ preloadsOf [(3, -1)] = some [(3, 0xFFFFFFFFFFFFFFFF#64)] ∧
    launch loopText [(3, -1)] = some (bootMoves loopProgram [(3, 0xFFFFFFFFFFFFFFFF#64)]) ∧
    1 ≤ (⟨.zero, 3⟩ : Params).pcWidth ∧ loopText.length ≤ 2 ^ (⟨.zero, 3⟩ : Params).pcWidth - 1 := by decide

end Sys2Proof.Tests
end

/-!
The family 00_scope.md (R10): the width invariant FitsWidth and the run-state invariant RunStateConsistent hold at reset and are kept by every step. First each invariant's rule for each update of the state, then what an instruction and a transaction keep, then the two obligations.
-/

namespace Sys2Proof.Machine

/-! ### FitsWidth: one rule per update -/

/-! The invariant says nothing of the registers, the flag, the run state or the host's side. -/

@[simp] theorem fitsWidth_setReg (s : State) (r : Reg) (v : Word) : FitsWidth (s.setReg r v) ↔ FitsWidth s := Iff.rfl
@[simp] theorem fitsWidth_setZf (s : State) (b : Bool) : FitsWidth (s.setZf b) ↔ FitsWidth s := Iff.rfl
@[simp] theorem fitsWidth_halt (s : State) : FitsWidth s.halt ↔ FitsWidth s := Iff.rfl
@[simp] theorem fitsWidth_awaitHost (s : State) : FitsWidth s.awaitHost ↔ FitsWidth s := Iff.rfl
@[simp] theorem fitsWidth_startRun (s : State) : FitsWidth s.startRun ↔ FitsWidth s := Iff.rfl
@[simp] theorem fitsWidth_host (s : State) (rest : List HostMove) : FitsWidth { s with host := rest } ↔ FitsWidth s := Iff.rfl
@[simp] theorem fitsWidth_reply (s : State) (a : Option HostView) : FitsWidth { s with reply := a } ↔ FitsWidth s := Iff.rfl

theorem FitsWidth.jumpTo {s : State} (h : FitsWidth s) {t : Nat} (ht : t < 2 ^ s.cfg.pcWidth) : FitsWidth (s.jumpTo t) := by
  obtain ⟨hw, -, hn, hfault, htarget, himem, hlt⟩ := h
  exact ⟨hw, ht, hn, hfault, htarget, himem, hlt⟩

/-- Below N the program counter can advance without leaving its width: N itself fits (R10, R33). -/
theorem FitsWidth.advancePc {s : State} (h : FitsWidth s) (hp : s.pc < s.icount) : FitsWidth (s.jumpTo (s.pc + 1)) := by
  have ⟨_, _, hn, _⟩ := h
  exact h.jumpTo (by omega)

theorem FitsWidth.jumpToLabel {s : State} (h : FitsWidth s) (lid : Nat) : FitsWidth (s.jumpTo (s.ltRead lid).target) := by
  have ⟨_, _, _, _, htarget, _⟩ := h
  exact h.jumpTo (htarget lid)

theorem FitsWidth.raise {s : State} (h : FitsWidth s) (c : Cause) (info : IWord) : FitsWidth (s.raise c info) := by
  obtain ⟨hw, hpc, hn, -, htarget, himem, hlt⟩ := h
  exact ⟨hw, hpc, hn, hpc, htarget, himem, hlt⟩

theorem FitsWidth.setIcount {s : State} (h : FitsWidth s) {n : Nat} (hn : n ≤ 2 ^ s.cfg.pcWidth - 1) :
    FitsWidth { s with icount := n } := by
  obtain ⟨hw, hpc, -, hfault, htarget, himem, hlt⟩ := h
  exact ⟨hw, hpc, hn, hfault, htarget, himem, hlt⟩

/-- The bytes of word `i` stand at the addresses `4i` to `4i + 3` (R58). -/
theorem Memory.mem_writeWord {m : List Host.Cell} {i : Nat} {w : IWord} {c : Host.Cell} (h : c ∈ Memory.writeWord m i w) :
    c ∈ m ∨ c.1 < 4 * (i + 1) := by
  unfold Memory.writeWord at h
  rcases Cells.mem_write h with h | rfl
  · rcases Cells.mem_write h with h | rfl
    · rcases Cells.mem_write h with h | rfl
      · rcases Cells.mem_write h with h | rfl
        · exact .inl h
        · right; omega
      · right; omega
    · right; omega
  · right; omega

theorem FitsWidth.loadWord {s : State} (h : FitsWidth s) {i : Nat} (w : IWord) (hi : i < 2 ^ s.cfg.pcWidth - 1) :
    FitsWidth (s.loadWord i w) := by
  obtain ⟨hw, hpc, hn, hfault, htarget, himem, hlt⟩ := h
  refine ⟨hw, hpc, hn, hfault, htarget, fun c hc => ?_, hlt⟩
  rcases Memory.mem_writeWord hc with hc | hc
  · exact himem c hc
  · exact hc.trans_le (Nat.mul_le_mul_left 4 hi)

theorem LabelTable.mem_write {l : List (Nat × LtEntry)} {lid : Nat} {e : LtEntry} {c : Nat × LtEntry}
    (h : c ∈ LabelTable.write l lid e) : c ∈ l ∨ c = (lid, e) := by
  unfold LabelTable.write at h
  split at h
  · exact .inl (Cells.mem_erase h)
  · exact Cells.mem_write h

theorem FitsWidth.loadLabel {s : State} (h : FitsWidth s) {lid t : Nat} (hlid : lid < 2 ^ 24) (ht : t < 2 ^ s.cfg.pcWidth) :
    FitsWidth (s.loadLabel lid t) := by
  obtain ⟨hw, hpc, hn, hfault, htarget, himem, hlt⟩ := h
  refine ⟨hw, hpc, hn, hfault, fun l => ?_, himem, fun c hc => ?_⟩
  · rw [State.ltRead_loadLabel]
    split
    · exact ht
    · exact htarget l
  · rw [State.loadLabel_lt] at hc
    rcases LabelTable.mem_write hc with hc | rfl
    · exact hlt c hc
    · exact hlid

/-- RESET leaves nothing that could overflow: it needs of the state before only that its PC_WIDTH is at least 1. -/
theorem fitsWidth_resetBlock {s : State} (hw : 1 ≤ s.cfg.pcWidth) : FitsWidth s.resetBlock := by
  have hpos : 0 < 2 ^ s.cfg.pcWidth := Nat.two_pow_pos _
  exact ⟨hw, hpos, Nat.zero_le _, hpos, fun _ => hpos, fun _ hc => absurd hc List.not_mem_nil,
    fun _ hc => absurd hc List.not_mem_nil⟩

/-! ### RunStateConsistent: what it says in each run state -/

/-- The fault record as RESET leaves it (R230). -/
def FaultRecordEmpty (s : State) : Prop := s.cause = .none ∧ s.faultPc = 0 ∧ s.faultInfo = 0#32

section
variable {s : State}

theorem runStateConsistent_of_idle (hr : s.run = .idle) :
    RunStateConsistent s ↔ (s.pc = 0 ∧ s.zf = false) ∧ FaultRecordEmpty s := by
  simp [RunStateConsistent, FaultRecordEmpty, hr]

theorem runStateConsistent_of_run (hr : s.run = .run) : RunStateConsistent s ↔ FaultRecordEmpty s := by
  simp [RunStateConsistent, FaultRecordEmpty, hr]

theorem runStateConsistent_of_debugWait (hr : s.run = .debugWait) :
    RunStateConsistent s ↔ s.pc < s.icount ∧ FaultRecordEmpty s := by
  simp [RunStateConsistent, FaultRecordEmpty, hr]

theorem runStateConsistent_of_halted (hr : s.run = .halted) :
    RunStateConsistent s ↔ s.pc = s.icount ∧ FaultRecordEmpty s := by
  simp [RunStateConsistent, FaultRecordEmpty, hr]

theorem runStateConsistent_of_faulted (hr : s.run = .faulted) :
    RunStateConsistent s ↔ s.cause ≠ .none ∧ s.faultPc = s.pc := by
  simp [RunStateConsistent, hr]

end

/-- Fault entry makes its own record, whatever the state before (R201). -/
theorem runStateConsistent_raise (s : State) {c : Cause} (hc : c ≠ .none) (info : IWord) :
    RunStateConsistent (s.raise c info) :=
  (runStateConsistent_of_faulted rfl).2 ⟨hc, rfl⟩

theorem runStateConsistent_resetBlock (s : State) : RunStateConsistent s.resetBlock :=
  (runStateConsistent_of_idle rfl).2 ⟨⟨rfl, rfl⟩, rfl, rfl, rfl⟩

/-! The invariant says nothing of the registers, the memories, the parameters or the host's side. -/

@[simp] theorem runStateConsistent_setReg (s : State) (r : Reg) (v : Word) :
    RunStateConsistent (s.setReg r v) ↔ RunStateConsistent s := Iff.rfl
@[simp] theorem runStateConsistent_loadWord (s : State) (i : Nat) (w : IWord) :
    RunStateConsistent (s.loadWord i w) ↔ RunStateConsistent s := Iff.rfl
@[simp] theorem runStateConsistent_loadLabel (s : State) (lid t : Nat) :
    RunStateConsistent (s.loadLabel lid t) ↔ RunStateConsistent s := Iff.rfl
@[simp] theorem runStateConsistent_host (s : State) (rest : List HostMove) :
    RunStateConsistent { s with host := rest } ↔ RunStateConsistent s := Iff.rfl
@[simp] theorem runStateConsistent_reply (s : State) (a : Option HostView) :
    RunStateConsistent { s with reply := a } ↔ RunStateConsistent s := Iff.rfl

/-! In RUN the program counter and the flag are free; in IDLE the instruction count is. -/

theorem RunStateConsistent.jumpTo {s : State} (h : RunStateConsistent s) (hr : s.run = .run) (t : Nat) :
    RunStateConsistent (s.jumpTo t) :=
  (runStateConsistent_of_run (s := s.jumpTo t) hr).2 ((runStateConsistent_of_run hr).1 h)

theorem RunStateConsistent.setZf {s : State} (h : RunStateConsistent s) (hr : s.run = .run) (b : Bool) :
    RunStateConsistent (s.setZf b) :=
  (runStateConsistent_of_run (s := s.setZf b) hr).2 ((runStateConsistent_of_run hr).1 h)

theorem RunStateConsistent.setIcount {s : State} (h : RunStateConsistent s) (hr : s.run = .idle) (n : Nat) :
    RunStateConsistent { s with icount := n } :=
  (runStateConsistent_of_idle (s := { s with icount := n }) hr).2 ((runStateConsistent_of_idle hr).1 h)

/-! ### What an instruction keeps -/

theorem exec_keeps_fitsWidth {i : Instr} {s t : State} (hf : FitsWidth s) (hp : s.pc < s.icount) (h : exec i s = .next t) :
    FitsWidth t := by
  rcases exec_next_cases h with ⟨-, rd, v, -, rfl⟩ | ⟨-, rd, v, -, rfl⟩ | ⟨-, rfl⟩ | ⟨-, rfl⟩ |
    ⟨lid, -, ⟨-, rfl | rfl⟩ | ⟨-, rfl⟩⟩
  · exact ((fitsWidth_setZf _ _).2 ((fitsWidth_setReg s rd v).2 hf)).advancePc hp
  · exact ((fitsWidth_setReg s rd v).2 hf).advancePc hp
  · exact hf.advancePc hp
  · exact (fitsWidth_awaitHost s).2 hf
  · exact hf.jumpToLabel lid
  · exact hf.advancePc hp
  · exact hf.raise _ _

/-- An instruction in RUN below N stays in RUN, waits below N, or raises; only the last touches the fault record. -/
theorem exec_keeps_runStateConsistent {i : Instr} {s t : State} (hc : RunStateConsistent s) (hr : s.run = .run)
    (hp : s.pc < s.icount) (h : exec i s = .next t) : RunStateConsistent t := by
  rcases exec_next_cases h with ⟨-, rd, v, -, rfl⟩ | ⟨-, rd, v, -, rfl⟩ | ⟨-, rfl⟩ | ⟨-, rfl⟩ |
    ⟨lid, -, ⟨-, rfl | rfl⟩ | ⟨-, rfl⟩⟩
  · exact (((runStateConsistent_setReg s rd v).2 hc).setZf hr _).jumpTo hr _
  · exact ((runStateConsistent_setReg s rd v).2 hc).jumpTo hr _
  · exact hc.jumpTo hr _
  · exact (runStateConsistent_of_debugWait rfl).2 ⟨hp, (runStateConsistent_of_run hr).1 hc⟩
  · exact hc.jumpTo hr _
  · exact hc.jumpTo hr _
  · exact runStateConsistent_raise s (by decide) _

/-! ### What a transaction keeps -/

/-- The arguments R45 admits fit; RESUME advances the program counter from below N, as RunStateConsistent says of DEBUG_WAIT. -/
theorem applyTx_keeps_fitsWidth {s : State} {tx : HostTx} (hf : FitsWidth s) (hc : RunStateConsistent s)
    (hl : TxListed s.cfg tx) (ha : HostTx.allowedIn tx s.run = true) : FitsWidth (s.applyTx tx) := by
  cases tx with
  | reset => exact fitsWidth_resetBlock hf.1
  | loadImem i w => exact hf.loadWord w hl
  | loadLt lid t => exact hf.loadLabel hl.1 hl.2
  | setIcount n => exact hf.setIcount hl
  | preload r v => exact (fitsWidth_setReg s r v).2 hf
  | start => exact (fitsWidth_startRun s).2 hf
  | resume =>
    have hwait : s.run = .debugWait := by simpa [HostTx.allowedIn] using ha
    exact hf.advancePc ((runStateConsistent_of_debugWait hwait).1 hc).1
  | inputFail => exact hf.raise _ _
  | read => exact (fitsWidth_reply s _).2 hf

theorem applyTx_keeps_runStateConsistent {s : State} {tx : HostTx} (hc : RunStateConsistent s)
    (ha : HostTx.allowedIn tx s.run = true) : RunStateConsistent (s.applyTx tx) := by
  cases tx with
  | reset => exact runStateConsistent_resetBlock s
  | loadImem i w => exact (runStateConsistent_loadWord s i w).2 hc
  | loadLt lid t => exact (runStateConsistent_loadLabel s lid t).2 hc
  | preload r v => exact (runStateConsistent_setReg s r v).2 hc
  | read => exact (runStateConsistent_reply s _).2 hc
  | setIcount n =>
    have hidle : s.run = .idle := by simpa [HostTx.allowedIn] using ha
    exact hc.setIcount hidle n
  | start =>
    have hidle : s.run = .idle := by simpa [HostTx.allowedIn] using ha
    exact (runStateConsistent_of_run rfl).2 ((runStateConsistent_of_idle hidle).1 hc).2
  | resume =>
    have hwait : s.run = .debugWait := by simpa [HostTx.allowedIn] using ha
    exact (runStateConsistent_of_run rfl).2 ((runStateConsistent_of_debugWait hwait).1 hc).2
  | inputFail => exact runStateConsistent_raise s (by decide) _

/-! ### What a step keeps -/

theorem step_keeps_fitsWidth {s t : State} (hf : FitsWidth s) (hc : RunStateConsistent s) (h : step s = .next t) :
    FitsWidth t := by
  have hf' : ∀ rest, FitsWidth { s with host := rest } := fun rest => (fitsWidth_host s rest).2 hf
  rcases step_next_cases h with ⟨tx, rest, -, hl, ⟨ha, rfl⟩ | ⟨-, rfl⟩⟩ |
    ⟨rest, -, ⟨-, rfl⟩ | ⟨-, -, rfl⟩ | ⟨-, -, rfl⟩ | ⟨-, -, -, rfl⟩ | ⟨-, hp, i, -, he⟩⟩
  · exact applyTx_keeps_fitsWidth (hf' rest) ((runStateConsistent_host s rest).2 hc) hl ha
  · exact hf' rest
  · exact hf' rest
  · exact (fitsWidth_halt _).2 (hf' rest)
  · exact (hf' rest).raise _ _
  · exact (hf' rest).raise _ _
  · exact exec_keeps_fitsWidth (hf' rest) hp he

theorem step_keeps_runStateConsistent {s t : State} (hc : RunStateConsistent s) (h : step s = .next t) :
    RunStateConsistent t := by
  have hc' : ∀ rest, RunStateConsistent { s with host := rest } := fun rest => (runStateConsistent_host s rest).2 hc
  rcases step_next_cases h with ⟨tx, rest, -, -, ⟨ha, rfl⟩ | ⟨-, rfl⟩⟩ |
    ⟨rest, -, ⟨-, rfl⟩ | ⟨hr, hp, rfl⟩ | ⟨-, -, rfl⟩ | ⟨-, -, -, rfl⟩ | ⟨hr, hp, i, -, he⟩⟩
  · exact applyTx_keeps_runStateConsistent (hc' rest) ha
  · exact hc' rest
  · exact hc' rest
  · exact (runStateConsistent_of_halted rfl).2 ⟨hp, (runStateConsistent_of_run hr).1 hc⟩
  · exact runStateConsistent_raise _ (by decide) _
  · exact runStateConsistent_raise _ (by decide) _
  · exact exec_keeps_runStateConsistent (hc' rest) hr hp he

/-! ### The obligations -/

/-- Settles O51: a case analysis over what a step can do, for each of the two invariants; the widths lean on the run-state
invariant where RESUME advances `pc`. -/
theorem stepKeepsWidthsAndRunState : Obligations.StepKeepsWidthsAndRunState := by
  unfold Obligations.StepKeepsWidthsAndRunState
  intro s t hf hc h
  exact ⟨step_keeps_fitsWidth hf hc h, step_keeps_runStateConsistent hc h⟩

/-- Settles O50: the reset state with parameters `c` is what RESET leaves of it, but for the epoch, which neither invariant reads. -/
theorem resetFitsItsWidths : Obligations.ResetFitsItsWidths := by
  unfold Obligations.ResetFitsItsWidths
  intro c hw
  have hf : FitsWidth (State.resetBlock { State.reset with cfg := c }) := fitsWidth_resetBlock hw
  exact ⟨hf, runStateConsistent_resetBlock { State.reset with cfg := c }⟩

end Sys2Proof.Machine

/-!
The family 10_state.md: what an instruction does to the flag, the registers and `pc` (R21 to R32), what a transaction of the host does to the block (R45), what leaves each run state (R40), and what a step fetches (R34). First the rules for instructions, for transactions and for the memories after a load, then the obligations.
-/

namespace Sys2Proof.Machine

/-! ### What an instruction does -/

/-- An instruction with a destination is neither `debug` nor a jump. -/
theorem notDebug_notJump_of_destination {i : Instr} {rd : Reg} (h : destination i = some rd) :
    i ≠ .debug ∧ ∀ lid, i ≠ .jz lid ∧ i ≠ .jnz lid ∧ i ≠ .j lid := by
  refine ⟨?_, fun lid => ⟨?_, ?_, ?_⟩⟩ <;>
  · rintro rfl
    cases h

theorem jump_writesZeroFlag {i : Instr} {lid : Nat} (h : i = .jz lid ∨ i = .jnz lid ∨ i = .j lid) :
    writesZeroFlag i = false := by
  rcases h with rfl | rfl | rfl <;> rfl

/-- When a jump that resolves is taken (R171 to R173). -/
def JumpTaken (i : Instr) (lid : Nat) (s : State) : Prop :=
  (i = .jz lid ∧ s.zf = true) ∨ (i = .jnz lid ∧ s.zf = false) ∨ i = .j lid

/-- The three jumps are one operation, each with its own condition. -/
theorem exec_jump {i : Instr} {lid : Nat} (h : i = .jz lid ∨ i = .jnz lid ∨ i = .j lid) (s : State) :
    ∃ taken, (taken = true ↔ JumpTaken i lid s) ∧ exec i s = .next (s.jumpIf taken lid) := by
  rcases h with rfl | rfl | rfl
  · exact ⟨s.zf, by simp [JumpTaken], rfl⟩
  · exact ⟨!s.zf, by simp [JumpTaken], rfl⟩
  · exact ⟨true, by simp [JumpTaken], rfl⟩

theorem exec_keeps_cfg {i : Instr} {s t : State} (h : exec i s = .next t) : t.cfg = s.cfg := by
  rcases exec_next_cases h with ⟨-, rd, v, -, rfl⟩ | ⟨-, rd, v, -, rfl⟩ | ⟨-, rfl⟩ | ⟨-, rfl⟩ |
    ⟨lid, -, ⟨-, rfl | rfl⟩ | ⟨-, rfl⟩⟩ <;> rfl

/-- Only `debug` and a jump that does not resolve leave the run state (R121, R204). -/
theorem exec_run_cases {i : Instr} {s t : State} (h : exec i s = .next t) :
    t.run = s.run ∨ (i = .debug ∧ t.run = .debugWait) ∨ (t.run = .faulted ∧ t.cause = .unknownLabel) := by
  rcases exec_next_cases h with ⟨-, rd, v, -, rfl⟩ | ⟨-, rd, v, -, rfl⟩ | ⟨-, rfl⟩ | ⟨hi, rfl⟩ |
    ⟨lid, -, ⟨-, rfl | rfl⟩ | ⟨-, rfl⟩⟩
  · exact .inl rfl
  · exact .inl rfl
  · exact .inl rfl
  · exact .inr (.inl ⟨hi, rfl⟩)
  · exact .inl rfl
  · exact .inl rfl
  · exact .inr (.inr ⟨rfl, rfl⟩)

/-- No word at all stops the cycle: it always answers a next state. -/
theorem cycle_answers (s : State) : ∃ t, cycle s = .next t := by
  rcases cycle_cases (rfl : cycle s = cycle s) with ⟨-, e⟩ | ⟨-, e⟩ | ⟨-, -, e⟩ | ⟨-, i, -, e⟩
  · exact ⟨_, e⟩
  · exact ⟨_, e⟩
  · exact ⟨_, e⟩
  · obtain ⟨t, ht, -⟩ := exec_cases e
    exact ⟨t, ht⟩

/-! ### What a transaction does -/

section
variable {s : State} {tx : HostTx} {rest : List HostMove}

theorem hostIssues_iff_of_issue (hh : s.host = .issue tx :: rest) (tx' : HostTx) : HostIssues s tx' ↔ tx' = tx := by
  simp [HostIssues, hh, eq_comm]

theorem not_hostIssues_of_quiet (hq : QuietThen s rest) (tx : HostTx) : ¬ HostIssues s tx := by
  rcases hq with hh | ⟨hh, -⟩ <;> simp [HostIssues, hh]

theorem step_issue (hh : s.host = .issue tx :: rest) : step s = transact tx { s with host := rest } := by
  unfold step advance
  rw [hh]

/-- A listed transaction in a run state that allows it has its effect. -/
theorem step_issue_allowed (hh : s.host = .issue tx :: rest) (hl : TxListed s.cfg tx)
    (ha : HostTx.allowedIn tx s.run = true) : step s = .next (State.applyTx { s with host := rest } tx) := by
  rw [step_issue hh, transact, (HostTx.outside_eq_none _ _).2 hl]
  exact if_pos ha

/-- A listed transaction in any other run state is only taken from the host's list. -/
theorem step_issue_notAllowed (hh : s.host = .issue tx :: rest) (hl : TxListed s.cfg tx)
    (ha : HostTx.allowedIn tx s.run = false) : step s = .next { s with host := rest } := by
  rw [step_issue hh, transact, (HostTx.outside_eq_none _ _).2 hl]
  exact if_neg (by simp [ha])

theorem step_issue_listed_answers (hh : s.host = .issue tx :: rest) (hl : TxListed s.cfg tx) : ∃ t, step s = .next t := by
  cases ha : HostTx.allowedIn tx s.run with
  | true => exact ⟨_, step_issue_allowed hh hl ha⟩
  | false => exact ⟨_, step_issue_notAllowed hh hl ha⟩

theorem step_issue_unlisted (hh : s.host = .issue tx :: rest) (hl : ¬ TxListed s.cfg tx) : ∃ f, step s = .fault f := by
  rw [step_issue hh]
  rcases transact_cases (rfl : transact tx { s with host := rest } = _) with ⟨f, -, e⟩ | ⟨ho, -⟩ | ⟨ho, -⟩
  · exact ⟨f, e⟩
  · exact absurd ((HostTx.outside_eq_none _ _).1 ho) hl
  · exact absurd ((HostTx.outside_eq_none _ _).1 ho) hl

end

/-! The column of R45 that says where a transaction is allowed. -/

theorem allowedIn_idleOnly {tx : HostTx} (h : idleOnly tx = true) (r : RunState) :
    HostTx.allowedIn tx r = true ↔ r = .idle := by
  cases tx with
  | loadImem | loadLt | setIcount | preload | start => simp [HostTx.allowedIn]
  | reset | resume | inputFail | read => cases h

theorem allowedIn_waitOnly {tx : HostTx} (h : waitOnly tx = true) (r : RunState) :
    HostTx.allowedIn tx r = true ↔ r = .debugWait := by
  cases tx with
  | resume | inputFail => simp [HostTx.allowedIn]
  | reset | loadImem | loadLt | setIcount | preload | start | read => cases h

theorem allowedIn_read (r : RunState) : HostTx.allowedIn .read r = true ↔ r ≠ .run := by
  cases r <;> decide

theorem applyTx_keeps_cfg (s : State) (tx : HostTx) : (s.applyTx tx).cfg = s.cfg := by
  cases tx <;> rfl

/-- The transactions that change the run state (R40). -/
theorem applyTx_run_cases {s : State} {tx : HostTx} (ha : HostTx.allowedIn tx s.run = true) :
    (s.applyTx tx).run = s.run ∨ (tx = .reset ∧ (s.applyTx tx).run = .idle) ∨
    (tx = .start ∧ s.run = .idle ∧ (s.applyTx tx).run = .run) ∨
    (tx = .resume ∧ s.run = .debugWait ∧ (s.applyTx tx).run = .run) ∨
    (tx = .inputFail ∧ s.run = .debugWait ∧ (s.applyTx tx).run = .faulted) := by
  cases tx with
  | loadImem | loadLt | setIcount | preload | read => exact .inl rfl
  | reset => exact .inr (.inl ⟨rfl, rfl⟩)
  | start => exact .inr (.inr (.inl ⟨rfl, (allowedIn_idleOnly rfl _).1 ha, rfl⟩))
  | resume => exact .inr (.inr (.inr (.inl ⟨rfl, (allowedIn_waitOnly rfl _).1 ha, rfl⟩)))
  | inputFail => exact .inr (.inr (.inr (.inr ⟨rfl, (allowedIn_waitOnly rfl _).1 ha, rfl⟩)))

/-! ### Instruction memory after a word is loaded -/

theorem byteOfWord_toNat (w : IWord) (k : Nat) : (byteOfWord w k).toNat = w.toNat / 2 ^ (8 * k) % 256 := by
  simp [byteOfWord, BitVec.extractLsb'_toNat, Nat.shiftRight_eq_div_pow]

theorem State.imemByte_loadWord (s : State) (i : Nat) (w : IWord) (a : Nat) :
    (s.loadWord i w).imemByte a = if a / 4 = i then byteOfWord w (a % 4) else s.imemByte a := by
  simp only [State.imemByte, State.loadWord_imem, State.loadWord_epoch, Memory.read_writeWord]
  split <;> rfl

theorem State.loaded_loadWord (s : State) (i j : Nat) (w : IWord) :
    (s.loadWord i w).loaded j = if j = i then true else s.loaded j := by
  have word_of : ∀ k < 4, (4 * j + k) / 4 = j := by omega
  have h0 : 4 * j / 4 = j := word_of 0 (by omega)
  simp only [State.loaded, State.loadWord_imem, Memory.read_writeWord, h0, word_of 1, word_of 2, word_of 3, Nat.reduceLT]
  split <;> rfl

/-! ### The registers the host reads -/

theorem State.statusWord_toNat (s : State) : s.statusWord.toNat = s.run.code := by
  unfold State.statusWord
  cases s.run <;> rfl

theorem State.causeWord_toNat (s : State) : s.causeWord.toNat = s.cause.code := by
  unfold State.causeWord
  cases s.cause <;> rfl

/-! ### Fetching -/

theorem cycle_decoded {s : State} {i : Instr} (hp : s.pc < s.icount) (hd : decode (s.ifetch s.pc) = .ok i) :
    cycle s = exec i s := by
  unfold cycle fetchDecodeExecute
  rw [if_neg (by omega), if_neg (by omega), hd]

theorem step_decoded {s : State} {rest : List HostMove} {i : Instr} (hq : QuietThen s rest) (hr : s.run = .run)
    (hp : s.pc < s.icount) (hd : decode (s.ifetch s.pc) = .ok i) : step s = exec i { s with host := rest } := by
  have hcycle : blockStep { s with host := rest } = cycle { s with host := rest } := by simp [blockStep, hr]
  rw [step_quiet hq, hcycle]
  exact cycle_decoded hp hd

/-! The state with a word placed stands in RUN below N, with the word at `pc` and no move of the host to come. -/

theorem placeWord_pc_lt_icount (s : State) (w : IWord) : (s.placeWord w).pc < (s.placeWord w).icount :=
  Nat.lt_of_lt_of_le (Nat.lt_succ_self s.pc) (Nat.le_max_right _ _)

theorem placeWord_ifetch (s : State) (w : IWord) : (s.placeWord w).ifetch (s.placeWord w).pc = w := by
  have h : (s.placeWord w).ifetch s.pc = (s.loadWord s.pc w).ifetch s.pc := State.ifetch_congr rfl rfl _
  exact h.trans (by simp [State.ifetch_loadWord])

theorem step_placeWord {s : State} {w : IWord} {i : Instr} (hd : decode w = .ok i) :
    step (s.placeWord w) = exec i (s.placeWord w) := by
  have hq : QuietThen (s.placeWord w) [] := .inr ⟨rfl, rfl⟩
  exact step_decoded hq rfl (placeWord_pc_lt_icount s w) (by rw [placeWord_ifetch, hd])

theorem tableWord_eq {w : Nat} (hw : w < 2 ^ 32) : tableWord 32 w = BitVec.ofNat 32 w := by
  rw [tableWord, Nat.mod_eq_of_lt hw]

/-! ### The obligations: rules over all instructions -/

/-- Settles O19: a case analysis over what an instruction can do; only the first case writes the flag, from the value it puts in
the destination. -/
theorem onlyTheEightWriteTheZeroFlag : Obligations.OnlyTheEightWriteTheZeroFlag := by
  unfold Obligations.OnlyTheEightWriteTheZeroFlag
  intro i s t h
  rcases exec_next_cases h with ⟨hw, rd, v, hd, rfl⟩ | ⟨hw, rd, v, -, rfl⟩ | ⟨rfl, rfl⟩ | ⟨rfl, rfl⟩ | ⟨lid, hi, ht⟩
  · exact ⟨fun _ => ⟨rd, hd, by simp⟩, fun hw' => by simp [hw] at hw'⟩
  · exact ⟨fun hw' => by simp [hw] at hw', fun _ => rfl⟩
  · exact ⟨fun hw => (nomatch hw), fun _ => rfl⟩
  · exact ⟨fun hw => (nomatch hw), fun _ => rfl⟩
  · refine ⟨fun hw => by simp [jump_writesZeroFlag hi] at hw, fun _ => ?_⟩
    rcases ht with ⟨-, rfl | rfl⟩ | ⟨-, rfl⟩ <;> rfl

/-- Settles O20: of what an instruction can do, only the two register writes touch a register, and they write the destination. -/
theorem onlyTheDestinationRegisterChanges : Obligations.OnlyTheDestinationRegisterChanges := by
  unfold Obligations.OnlyTheDestinationRegisterChanges
  intro i s t r h hr
  have hne : ∀ rd, destination i = some rd → r ≠ rd := by
    rintro rd hd rfl
    exact hr hd
  rcases exec_next_cases h with ⟨-, rd, v, hd, rfl⟩ | ⟨-, rd, v, hd, rfl⟩ | ⟨-, rfl⟩ | ⟨-, rfl⟩ |
    ⟨lid, -, ⟨-, rfl | rfl⟩ | ⟨-, rfl⟩⟩
  · simpa using State.reg_setReg_other s v (hne rd hd)
  · simpa using State.reg_setReg_other s v (hne rd hd)
  all_goals rfl

/-- Settles O21: an instruction with a destination and `noop` advance, `debug` waits, and a jump is `jumpIf` under its own
condition. -/
theorem pcAdvancesByOneOrToTheTarget : Obligations.PcAdvancesByOneOrToTheTarget := by
  unfold Obligations.PcAdvancesByOneOrToTheTarget
  intro i s t h
  rcases exec_next_cases h with ⟨-, rd, v, hd, rfl⟩ | ⟨-, rd, v, hd, rfl⟩ | ⟨rfl, rfl⟩ | ⟨hi, rfl⟩ | ⟨lid, hi, -⟩
  · exact .inr (.inr ⟨(notDebug_notJump_of_destination hd).1, (notDebug_notJump_of_destination hd).2, rfl⟩)
  · exact .inr (.inr ⟨(notDebug_notJump_of_destination hd).1, (notDebug_notJump_of_destination hd).2, rfl⟩)
  · exact .inr (.inr ⟨by simp, by simp, rfl⟩)
  · exact .inl ⟨hi, rfl⟩
  · refine .inr (.inl ⟨lid, hi, ?_⟩)
    obtain ⟨taken, htaken, he⟩ := exec_jump hi s
    rw [he] at h
    rw [next_inj h]
    rcases State.jumpIf_cases s taken lid with ⟨hv, e⟩ | ⟨hv, rfl, e⟩ | ⟨hv, rfl, e⟩ <;> rw [e]
    · exact .inl ⟨hv, rfl, rfl⟩
    · exact .inr ⟨hv, (if_pos (htaken.1 rfl)).symm⟩
    · exact .inr ⟨hv, (if_neg (mt htaken.2 (by decide))).symm⟩

/-! ### The obligations: the host port -/

/-- Settles O36: LOAD_IMEM is `loadWord`, and what each word, byte and mark of loading reads after it is said by its rules. -/
theorem loadImemReplacesOneWord : Obligations.LoadImemReplacesOneWord := by
  unfold Obligations.LoadImemReplacesOneWord
  intro s rest i w hh hr hi
  refine ⟨State.loadWord { s with host := rest } i w, step_issue_allowed hh hi ((allowedIn_idleOnly rfl _).2 hr),
    ?_, ?_, fun j hj => ⟨?_, ?_⟩, fun k hk => ?_, fun a ha => ?_, rfl⟩
  · simp [State.ifetch_loadWord]
  · simp [State.loaded_loadWord]
  · rw [State.ifetch_loadWord, if_neg hj]
    rfl
  · rw [State.loaded_loadWord, if_neg hj]
    rfl
  · rw [State.imemByte_loadWord, if_pos (by omega), byteOfWord_toNat, Nat.mul_add_mod, Nat.mod_eq_of_lt hk]
  · rw [State.imemByte_loadWord, if_neg ha]
    rfl

/-- Settles O37: LOAD_LT is `loadLabel`, which replaces one entry. -/
theorem loadLtReplacesOneEntry : Obligations.LoadLtReplacesOneEntry := by
  unfold Obligations.LoadLtReplacesOneEntry
  intro s rest lid tgt hh hr hlid htgt
  refine ⟨State.loadLabel { s with host := rest } lid tgt,
    step_issue_allowed hh ⟨hlid, htgt⟩ ((allowedIn_idleOnly rfl _).2 hr), ?_, fun l hl => ?_, rfl⟩
  · simp [State.ltRead_loadLabel]
  · rw [State.ltRead_loadLabel, if_neg hl]
    rfl

/-- Settles O38: PRELOAD is `setReg`, and SET_ICOUNT an update of the one field. -/
theorem preloadAndSetIcountWriteOneRegister : Obligations.PreloadAndSetIcountWriteOneRegister := by
  unfold Obligations.PreloadAndSetIcountWriteOneRegister
  refine ⟨fun s rest r v hh hr => ?_, fun s rest n hh hr hn => ?_⟩
  · exact ⟨State.setReg { s with host := rest } r v, step_issue_allowed hh trivial ((allowedIn_idleOnly rfl _).2 hr),
      State.reg_setReg_same _ r v, fun q hq => State.reg_setReg_other _ v hq, rfl⟩
  · exact step_issue_allowed hh hn ((allowedIn_idleOnly rfl _).2 hr)

/-- Settles O42: in each of the three situations R45 does not allow the transaction. -/
theorem transactionsOutsideTheirStatesDoNothing : Obligations.TransactionsOutsideTheirStatesDoNothing := by
  unfold Obligations.TransactionsOutsideTheirStatesDoNothing
  intro s tx rest hh hl hout
  have ha : ¬ HostTx.allowedIn tx s.run = true := by
    rcases hout with ⟨hi, hr⟩ | ⟨hw, hr⟩ | ⟨rfl, hr⟩
    · exact mt (allowedIn_idleOnly hi _).1 hr
    · exact mt (allowedIn_waitOnly hw _).1 hr
    · exact mt (allowedIn_read _).1 (not_not_intro hr)
  exact step_issue_notAllowed hh hl (Bool.eq_false_of_not_eq_true ha)

/-- Settles O43: a transaction stops the model exactly where it is not listed, and neither waiting nor the cycle ever does. -/
theorem onlyUnlistedTransactionsStopTheModel : Obligations.OnlyUnlistedTransactionsStopTheModel := by
  unfold Obligations.OnlyUnlistedTransactionsStopTheModel
  intro s
  rcases step_cases (rfl : step s = step s) with ⟨tx, rest, hh, -⟩ | ⟨rest, hq, hblock⟩
  · have hissues := hostIssues_iff_of_issue hh
    by_cases hl : TxListed s.cfg tx
    · exact .inr ⟨fun tx' h => (hissues tx').1 h ▸ hl, step_issue_listed_answers hh hl⟩
    · exact .inl ⟨⟨tx, (hissues tx).2 rfl, hl⟩, step_issue_unlisted hh hl⟩
  · refine .inr ⟨fun tx h => absurd h (not_hostIssues_of_quiet hq tx), ?_⟩
    rcases hblock with ⟨-, hcycle⟩ | ⟨-, e⟩
    · exact hcycle ▸ cycle_answers _
    · exact ⟨_, e⟩

/-- Settles O41: READ is allowed in every run state but RUN, and its effect is to hand over the view. -/
theorem readReturnsTheViewAndChangesNothing : Obligations.ReadReturnsTheViewAndChangesNothing := by
  unfold Obligations.ReadReturnsTheViewAndChangesNothing
  intro s rest hh hr
  have hunchanged : BlockUnchanged s { s with host := rest, reply := some s.view } :=
    ⟨rfl, rfl, rfl, rfl, rfl, rfl, rfl, rfl, rfl, rfl, rfl, rfl⟩
  exact ⟨{ s with host := rest, reply := some s.view }, s.view, step_issue_allowed hh trivial ((allowedIn_read _).2 hr), rfl,
    hunchanged, rfl, fun _ => rfl, rfl, rfl, s.statusWord_toNat, s.causeWord_toNat, rfl, rfl, rfl⟩

/-! ### The obligations: run states, parameters and the step -/

/-- Settles O44: the code of each run state is its row's; a step is a transaction, waiting, or a row of R207, and each changes the
run state as its own rule says. -/
theorem runStateChangesAreTheTabledOnes : Obligations.RunStateChangesAreTheTabledOnes := by
  unfold Obligations.RunStateChangesAreTheTabledOnes
  refine ⟨fun s => ?_, fun s t h => ?_⟩
  · unfold State.statusWord
    cases s.run <;> rfl
  · rcases step_next_cases h with ⟨tx, rest, hh, -, ⟨ha, rfl⟩ | ⟨-, rfl⟩⟩ |
      ⟨rest, -, ⟨-, rfl⟩ | ⟨hr, hp, rfl⟩ | ⟨hr, -, rfl⟩ | ⟨hr, -, -, rfl⟩ | ⟨hr, -, i, hd, he⟩⟩
    · have hissues : HostIssues s tx := ⟨rest, hh⟩
      rcases applyTx_run_cases (s := { s with host := rest }) ha with e | ⟨rfl, e⟩ | ⟨rfl, hr, e⟩ | ⟨rfl, hr, e⟩ | ⟨rfl, hr, e⟩
      · exact .inl e
      · exact .inr (.inl ⟨e, hissues⟩)
      · exact .inr (.inr (.inl ⟨hr, e, hissues⟩))
      · exact .inr (.inr (.inr (.inr (.inr (.inr (.inl ⟨hr, e, hissues⟩))))))
      · exact .inr (.inr (.inr (.inr (.inr (.inr (.inr ⟨hr, e, hissues⟩))))))
    · exact .inl rfl
    · exact .inl rfl
    · exact .inr (.inr (.inr (.inl ⟨hr, rfl, hp⟩)))
    · exact .inr (.inr (.inr (.inr (.inl ⟨hr, rfl, by simp⟩))))
    · exact .inr (.inr (.inr (.inr (.inl ⟨hr, rfl, by simp⟩))))
    · rcases exec_run_cases he with e | ⟨rfl, e⟩ | ⟨e, hc⟩
      · exact .inl e
      · exact .inr (.inr (.inr (.inr (.inr (.inl ⟨hr, e, hd⟩)))))
      · exact .inr (.inr (.inr (.inr (.inl ⟨hr, e, by simp [hc]⟩))))

/-- Settles O47: a case analysis over what a step can do; no transaction and no instruction writes the parameters. -/
theorem noStepChangesTheParameters : Obligations.NoStepChangesTheParameters := by
  unfold Obligations.NoStepChangesTheParameters
  intro s t h
  rcases step_next_cases h with ⟨tx, rest, -, -, ⟨-, rfl⟩ | ⟨-, rfl⟩⟩ |
    ⟨rest, -, ⟨-, rfl⟩ | ⟨-, -, rfl⟩ | ⟨-, -, rfl⟩ | ⟨-, -, -, rfl⟩ | ⟨-, -, i, -, he⟩⟩
  · exact applyTx_keeps_cfg { s with host := rest } tx
  · rfl
  · rfl
  · rfl
  · rfl
  · rfl
  · exact exec_keeps_cfg (s := { s with host := rest }) he

/-- Settles O27: the step of a quiet host in RUN is one of the cycle, and below N the cycle runs what it decodes. -/
theorem stepRunsTheDecodedInstruction : Obligations.StepRunsTheDecodedInstruction := by
  unfold Obligations.StepRunsTheDecodedInstruction
  intro s rest i hq hr hp hd
  exact step_decoded hq hr hp hd

/-- Settles O28: the placed word is a whole table word, and it is what the next step fetches. -/
theorem stepRunsThePlacedWord : Obligations.StepRunsThePlacedWord := by
  unfold Obligations.StepRunsThePlacedWord
  intro s w i hw hd
  rw [← tableWord_eq hw] at hd
  exact ⟨step_placeWord hd, rfl, fun _ => rfl, rfl, fun _ => rfl⟩

end Sys2Proof.Machine

/-!
The family 20_memory.md: who writes instruction memory, the label table and ICOUNT (R42, R54, R57), and the canonical form of the two memories (R51). First the steps that write them: only a transaction of R45 does, the block by itself never. Then the obligations.
-/

namespace Sys2Proof.Machine

/-! ### The program: ICOUNT and the two memories, with the epoch that the free values of unloaded bytes are drawn from -/

/-- ICOUNT, both memories and the epoch are unchanged: all that a fetch or a label read depends on. -/
def ProgramKept (s t : State) : Prop := t.icount = s.icount ∧ t.imem = s.imem ∧ t.lt = s.lt ∧ t.epoch = s.epoch

theorem ProgramKept.imemByte {s t : State} (h : ProgramKept s t) (a : Nat) : t.imemByte a = s.imemByte a := by
  obtain ⟨-, himem, -, hepoch⟩ := h
  exact State.imemByte_congr himem hepoch a

theorem ProgramKept.ifetch {s t : State} (h : ProgramKept s t) (i : Nat) : t.ifetch i = s.ifetch i := by
  obtain ⟨-, himem, -, hepoch⟩ := h
  exact State.ifetch_congr himem hepoch i

theorem ProgramKept.ltRead {s t : State} (h : ProgramKept s t) (lid : Nat) : t.ltRead lid = s.ltRead lid := by
  obtain ⟨-, -, hlt, -⟩ := h
  exact State.ltRead_congr hlt lid

/-- No instruction writes the program (R54, R57). -/
theorem exec_keeps_program {i : Instr} {s t : State} (h : exec i s = .next t) : ProgramKept s t := by
  rcases exec_next_cases h with ⟨-, rd, v, -, rfl⟩ | ⟨-, rd, v, -, rfl⟩ | ⟨-, rfl⟩ | ⟨-, rfl⟩ |
    ⟨lid, -, ⟨-, rfl | rfl⟩ | ⟨-, rfl⟩⟩ <;> exact ⟨rfl, rfl, rfl, rfl⟩

/-- Outside IDLE no transaction but RESET writes the program: LOAD_IMEM, LOAD_LT and SET_ICOUNT are not allowed there (R45). -/
theorem applyTx_keeps_program {s : State} {tx : HostTx} (ha : HostTx.allowedIn tx s.run = true) (hr : s.run ≠ .idle)
    (hreset : tx ≠ .reset) : ProgramKept s (s.applyTx tx) := by
  cases tx with
  | reset => exact absurd rfl hreset
  | loadImem | loadLt | setIcount => exact absurd ((allowedIn_idleOnly rfl _).1 ha) hr
  | preload | start | resume | inputFail | read => exact ⟨rfl, rfl, rfl, rfl⟩

/-- A step keeps the program unless it is an allowed transaction of the host. -/
theorem step_program_cases {s t : State} (h : step s = .next t) :
    (∃ tx rest, s.host = .issue tx :: rest ∧ HostTx.allowedIn tx s.run = true ∧
      t = State.applyTx { s with host := rest } tx) ∨
    ProgramKept s t := by
  rcases step_next_cases h with ⟨tx, rest, hh, -, ⟨ha, e⟩ | ⟨-, rfl⟩⟩ |
    ⟨rest, -, ⟨-, rfl⟩ | ⟨-, -, rfl⟩ | ⟨-, -, rfl⟩ | ⟨-, -, -, rfl⟩ | ⟨-, -, i, -, he⟩⟩
  · exact .inl ⟨tx, rest, hh, ha, e⟩
  · exact .inr ⟨rfl, rfl, rfl, rfl⟩
  · exact .inr ⟨rfl, rfl, rfl, rfl⟩
  · exact .inr ⟨rfl, rfl, rfl, rfl⟩
  · exact .inr ⟨rfl, rfl, rfl, rfl⟩
  · exact .inr ⟨rfl, rfl, rfl, rfl⟩
  · exact .inr (exec_keeps_program (s := { s with host := rest }) he)

/-! ### The canonical form -/

/-- Two empty memories, as RESET leaves them, are canonical. -/
theorem canonical_of_empty {s : State} (himem : s.imem = []) (hlt : s.lt = []) : Canonical s := by
  unfold Canonical
  rw [himem, hlt]
  exact ⟨Memory.wf_reset, LabelTable.wf_reset⟩

theorem ProgramKept.canonical {s t : State} (h : ProgramKept s t) (hc : Canonical s) : Canonical t := by
  obtain ⟨-, himem, hlt, -⟩ := h
  unfold Canonical
  rwa [himem, hlt]

/-- RESET empties the memories, LOAD_IMEM and LOAD_LT write one of them in canonical form, and the rest touch neither. -/
theorem applyTx_keeps_canonical {s : State} (hc : Canonical s) (tx : HostTx) : Canonical (s.applyTx tx) := by
  have ⟨himem, hlt⟩ := hc
  cases tx with
  | reset => exact canonical_of_empty rfl rfl
  | loadImem i w => exact ⟨Memory.wf_writeWord i w himem, hlt⟩
  | loadLt lid t => exact ⟨himem, LabelTable.wf_write lid { valid := true, target := t } hlt⟩
  | setIcount | preload | start | resume | inputFail | read => exact hc

/-! ### The obligations -/

/-- Settles O49: a step is an allowed transaction, and each of those keeps the form, or it leaves both memories as they were. -/
theorem stepKeepsCanonicalMemories : Obligations.StepKeepsCanonicalMemories := by
  unfold Obligations.StepKeepsCanonicalMemories
  intro s t hc h
  rcases step_program_cases h with ⟨tx, rest, -, -, rfl⟩ | hkept
  · exact applyTx_keeps_canonical (s := { s with host := rest }) hc tx
  · exact hkept.canonical hc

/-- Settles O46: a step keeps the program unless the host issues a transaction, and outside IDLE only RESET writes it. -/
theorem programIsImmutableOutsideIdle : Obligations.ProgramIsImmutableOutsideIdle := by
  unfold Obligations.ProgramIsImmutableOutsideIdle
  intro s t h hr hreset
  have hkept : ProgramKept s t := by
    rcases step_program_cases h with ⟨tx, rest, hh, ha, rfl⟩ | hkept
    · have hne : tx ≠ .reset := fun e => hreset ((hostIssues_iff_of_issue hh .reset).2 e.symm)
      exact applyTx_keeps_program (s := { s with host := rest }) ha hr hne
    · exact hkept
  have ⟨hicount, himem, hlt, _⟩ := hkept
  exact ⟨hicount, himem, hkept.imemByte, hkept.ifetch, hlt, hkept.ltRead⟩

/-- Settles O48: RESET's two memories list nothing. -/
theorem resetIsCanonical : Obligations.ResetIsCanonical := by
  unfold Obligations.ResetIsCanonical
  exact canonical_of_empty rfl rfl

end Sys2Proof.Machine

/-!
The family 30_encoding.md, Part A: the encoder and the decoder are inverse to each other (R72 to R78), and the words that decode are those that match a row of the opcode map (R77). Each format is read back from its fields; each row's mask covers the opcode and one field, the reserved one.
-/

namespace Sys2Proof

/-! ### The decoder reads what the encoder wrote -/

theorem decode_encode {i : Instr} (h : i.wellFormed = true) : decode (encode i) = .ok i := by
  cases i with
  | noop | debug => decide
  | zero | inc | dec | not => simp [decode, encode, formatR1_fields, whenZero_eq_ok]
  | mov => simp [decode, encode, formatR2_fields, whenZero_eq_ok]
  | add | sub | and | or | xor => simp [decode, encode, formatR3_fields, whenZero_eq_ok]
  | shl rd ov sh | shr rd ov sh =>
    have hsh : sh < 64 := (shiftFieldFits_iff sh).1 h
    cases ov <;> simp [decode, encode, formatSH_fields _ _ _ hsh, whenZero_eq_ok]
  | jz lid | jnz lid | j lid =>
    have hlid : lid < 2 ^ 24 := (lidFits_iff lid).1 h
    simp [decode, encode, formatL_fields _ hlid, whenZero_eq_ok]

/-! ### A word whose reserved field is zero is the word of its other fields -/

section
variable {w : IWord} {op : BitVec 5}

theorem formatN_of_fields (hop : field w 31 27 = op.toNat) (hzero : field w 26 0 = 0) : formatN op = w := by
  rw [field_eq] at hop hzero
  have := w.isLt
  refine BitVec.eq_of_toNat_eq ?_
  rw [formatN_toNat]
  omega

theorem formatR1_of_fields (hop : field w 31 27 = op.toNat) (hzero : field w 23 0 = 0) :
    formatR1 op (regField w 24) = w := by
  rw [field_eq] at hop hzero
  have := w.isLt
  refine BitVec.eq_of_toNat_eq ?_
  rw [formatR1_toNat, regField_val]
  omega

theorem formatR2_of_fields (hop : field w 31 27 = op.toNat) (hzero : field w 20 0 = 0) :
    formatR2 op (regField w 24) (regField w 21) = w := by
  rw [field_eq] at hop hzero
  have := w.isLt
  refine BitVec.eq_of_toNat_eq ?_
  rw [formatR2_toNat, regField_val, regField_val]
  omega

theorem formatR3_of_fields (hop : field w 31 27 = op.toNat) (hzero : field w 17 0 = 0) :
    formatR3 op (regField w 24) (regField w 21) (regField w 18) = w := by
  rw [field_eq] at hop hzero
  have := w.isLt
  refine BitVec.eq_of_toNat_eq ?_
  rw [formatR3_toNat, regField_val, regField_val, regField_val]
  omega

/-- The bit `ov` as a number is the field it is read from (R75). -/
theorem ov_toNat (w : IWord) : (decide (field w 6 6 = 1)).toNat = field w 6 6 := by
  have hlt : field w 6 6 < 2 := (w.extractLsb 6 6).isLt
  interval_cases field w 6 6 <;> rfl

theorem formatSH_of_fields (hop : field w 31 27 = op.toNat) (hzero : field w 23 7 = 0) :
    formatSH op (regField w 24) (decide (field w 6 6 = 1)) (field w 5 0) = w := by
  rw [field_eq] at hop hzero
  have := w.isLt
  refine BitVec.eq_of_toNat_eq ?_
  rw [formatSH_toNat, regField_val, ov_toNat, field_eq, field_eq]
  omega

theorem formatL_of_fields (hop : field w 31 27 = op.toNat) (hzero : field w 26 24 = 0) :
    formatL op (field w 23 0) = w := by
  rw [field_eq] at hop hzero
  have := w.isLt
  refine BitVec.eq_of_toNat_eq ?_
  rw [formatL_toNat, field_eq]
  omega

theorem shiftFieldFits_field (w : IWord) : shiftFieldFits (field w 5 0) = true :=
  (shiftFieldFits_iff _).2 (w.extractLsb 5 0).isLt

theorem lidFits_field (w : IWord) : lidFits (field w 23 0) = true :=
  (lidFits_iff _).2 (w.extractLsb 23 0).isLt

end

/-- One case per opcode of the map: its format's reserved field is zero, so the word is the one of its fields. -/
theorem encode_of_decode {w : IWord} {i : Instr} (h : decode w = .ok i) : i.wellFormed = true ∧ encode i = w := by
  unfold decode at h
  split at h
  case h_18 => cases h
  all_goals obtain ⟨hzero, rfl⟩ := whenZero_eq_ok.1 h
  case h_1 hop | h_2 hop => exact ⟨rfl, formatN_of_fields hop hzero⟩
  case h_3 hop | h_7 hop | h_8 hop | h_12 hop => exact ⟨rfl, formatR1_of_fields hop hzero⟩
  case h_4 hop => exact ⟨rfl, formatR2_of_fields hop hzero⟩
  case h_5 hop | h_6 hop | h_9 hop | h_10 hop | h_11 hop => exact ⟨rfl, formatR3_of_fields hop hzero⟩
  case h_13 hop | h_14 hop => exact ⟨shiftFieldFits_field w, formatSH_of_fields hop hzero⟩
  case h_15 hop | h_16 hop | h_17 hop => exact ⟨lidFits_field w, formatL_of_fields hop hzero⟩

/-! ### The rows of the opcode map as an opcode and a reserved field -/

/-- A row of the opcode map: the opcode, and the bounds of the one field its format reserves (R72, R77). -/
structure FormatRow where
  op : Nat
  hi : Nat
  lo : Nat

/-- The map of R77, opcode 0 first. -/
def formatRows : List FormatRow :=
  [⟨0, 26, 0⟩, ⟨1, 26, 0⟩, ⟨2, 23, 0⟩, ⟨3, 20, 0⟩, ⟨4, 17, 0⟩, ⟨5, 17, 0⟩, ⟨6, 23, 0⟩, ⟨7, 23, 0⟩, ⟨8, 17, 0⟩, ⟨9, 17, 0⟩,
   ⟨10, 17, 0⟩, ⟨11, 23, 0⟩, ⟨12, 23, 7⟩, ⟨13, 23, 7⟩, ⟨14, 26, 24⟩, ⟨15, 26, 24⟩, ⟨16, 26, 24⟩]

/-- The row's opcode is in the word and its reserved field is zero. -/
def FormatRow.Admits (r : FormatRow) (w : IWord) : Prop := field w 31 27 = r.op ∧ field w r.hi r.lo = 0

/-- The decoder selects the row by the opcode and tests its reserved field (R78). -/
theorem decode_accepts_iff (w : IWord) : (∃ i, decode w = .ok i) ↔ ∃ r ∈ formatRows, r.Admits w := by
  unfold decode
  split
  case h_18 => simp_all [formatRows, FormatRow.Admits]
  all_goals
    next hop => simp [formatRows, FormatRow.Admits, hop, whenZero_eq_ok]

/-! ### A row's mask covers the opcode and the reserved field -/

/-- The bits of `w[hi:lo]`. -/
def fieldMask (hi lo : Nat) : IWord := BitVec.ofNat 32 ((2 ^ (hi - lo + 1) - 1) <<< lo)

theorem and_fieldMask_toNat (w : IWord) {hi lo : Nat} (hlo : lo ≤ hi) (hhi : hi < 32) :
    (w &&& fieldMask hi lo).toNat = field w hi lo * 2 ^ lo := by
  rw [field_eq, ← Nat.shiftLeft_eq, ← Nat.shiftRight_eq_div_pow, fieldMask, BitVec.toNat_and, BitVec.toNat_ofNat]
  refine Nat.eq_of_testBit_eq fun n => ?_
  simp only [Nat.testBit_and, Nat.testBit_mod_two_pow, Nat.testBit_shiftLeft, Nat.testBit_two_pow_sub_one,
    Nat.testBit_shiftRight]
  by_cases hn : lo ≤ n ∧ n - lo < hi - lo + 1
  · have h32 : n < 32 := by omega
    simp [hn, h32]
  · grind

theorem and_fieldMask_eq_zero (w : IWord) {hi lo : Nat} (hlo : lo ≤ hi) (hhi : hi < 32) :
    w &&& fieldMask hi lo = 0#32 ↔ field w hi lo = 0 := by
  rw [← BitVec.toNat_inj, and_fieldMask_toNat w hlo hhi]
  simp

/-- The row's match word holds its opcode and nothing else. -/
def FormatRow.matchWord (r : FormatRow) : IWord := BitVec.ofNat 32 (r.op * 2 ^ 27)

theorem and_opcodeMask_eq_matchWord (w : IWord) {r : FormatRow} (hr : r.op < 32) :
    w &&& fieldMask 31 27 = r.matchWord ↔ field w 31 27 = r.op := by
  rw [← BitVec.toNat_inj, and_fieldMask_toNat w (by decide) (by decide), FormatRow.matchWord, BitVec.toNat_ofNat]
  omega

/-- The row as R77 writes it: its mask and its match. -/
def FormatRow.row (r : FormatRow) : IWord × IWord := (fieldMask 31 27 ||| fieldMask r.hi r.lo, r.matchWord)

theorem opcodeRows_eq : opcodeRows = formatRows.map FormatRow.row := by decide

/-- A match word within one mask and outside another splits the test of the joint mask into two. -/
theorem and_or_eq_iff {w a b m : IWord} (hma : m &&& a = m) (hmb : m &&& b = 0#32) :
    w &&& (a ||| b) = m ↔ w &&& a = m ∧ w &&& b = 0#32 := by
  constructor
  · intro h
    have ha : (a ||| b) &&& a = a := by ext i; simp +contextual
    have hb : (a ||| b) &&& b = b := by ext i; simp +contextual
    constructor
    · rw [← ha, ← BitVec.and_assoc, h, hma]
    · rw [← hb, ← BitVec.and_assoc, h, hmb]
  · rintro ⟨ha, hb⟩
    rw [BitVec.and_or_distrib_left, ha, hb, BitVec.or_zero]

theorem matchesRow_row {r : FormatRow} (hr : r ∈ formatRows) (w : IWord) : matchesRow w r.row = true ↔ r.Admits w := by
  have hfits : ∀ r ∈ formatRows, r.op < 32 ∧ r.lo ≤ r.hi ∧ r.hi < 32 ∧
      r.matchWord &&& fieldMask 31 27 = r.matchWord ∧ r.matchWord &&& fieldMask r.hi r.lo = 0#32 := by decide
  obtain ⟨hop, hlo, hhi, hin, hout⟩ := hfits r hr
  rw [matchesRow, beq_iff_eq]
  exact (and_or_eq_iff hin hout).trans
    (and_congr (and_opcodeMask_eq_matchWord w hop) (and_fieldMask_eq_zero w hlo hhi))

theorem legalWord_iff (w : IWord) : legalWord w = true ↔ ∃ r ∈ formatRows, r.Admits w := by
  rw [legalWord, opcodeRows_eq, List.any_map, List.any_eq_true]
  exact exists_congr fun r => and_congr_right fun hr => matchesRow_row hr w

theorem decode_accepts_iff_legalWord (w : IWord) : (∃ i, decode w = .ok i) ↔ legalWord w = true :=
  (decode_accepts_iff w).trans (legalWord_iff w).symm

theorem legalWord_encode {i : Instr} (h : i.wellFormed = true) : legalWord (encode i) = true :=
  (decode_accepts_iff_legalWord _).1 ⟨i, decode_encode h⟩

/-- The rows of the map that a word matches. -/
def matchingRows (w : IWord) : List FormatRow := formatRows.filter (matchesRow w ∘ FormatRow.row)

theorem filter_opcodeRows (w : IWord) : opcodeRows.filter (matchesRow w) = (matchingRows w).map FormatRow.row := by
  rw [opcodeRows_eq, List.filter_map, matchingRows]

/-- The rows that match a word all have the word's opcode. -/
theorem op_eq_of_mem_matchingRows {w : IWord} {r : FormatRow} (h : r ∈ matchingRows w) : r.op = field w 31 27 := by
  obtain ⟨hr, hmatch⟩ := List.mem_filter.1 h
  have ⟨hop, _⟩ := (matchesRow_row hr w).1 hmatch
  exact hop.symm

/-- The map lists each opcode once. -/
theorem matchingRows_op_nodup (w : IWord) : ((matchingRows w).map FormatRow.op).Nodup :=
  (show (formatRows.map FormatRow.op).Nodup by decide).sublist (List.filter_sublist.map _)

theorem matchesRow_unique (w : IWord) : (opcodeRows.filter (matchesRow w)).length ≤ 1 := by
  have hsame : ∀ op ∈ (matchingRows w).map FormatRow.op, op = field w 31 27 :=
    List.forall_mem_map.2 fun _ => op_eq_of_mem_matchingRows
  have hnodup := matchingRows_op_nodup w
  rw [List.eq_replicate_of_mem hsame, List.nodup_replicate, List.length_map] at hnodup
  rwa [filter_opcodeRows, List.length_map]

/-! ### The obligations -/

/-- Settles O23: the decoder reads back each field of the format. -/
theorem decodeOfEncodeIsTheInstruction : Obligations.DecodeOfEncodeIsTheInstruction := by
  unfold Obligations.DecodeOfEncodeIsTheInstruction
  exact fun _ h => decode_encode h

/-- Settles O24: a word that decodes is the word of its fields, since its reserved field is zero. -/
theorem encodeOfDecodeIsTheWord : Obligations.EncodeOfDecodeIsTheWord := by
  unfold Obligations.EncodeOfDecodeIsTheWord
  exact fun _ _ h => encode_of_decode h

/-- Settles O25: decoder and map test the same opcode and the same reserved field, and no two rows share an opcode. -/
theorem legalExactlyWhenOneRowMatches : Obligations.LegalExactlyWhenOneRowMatches := by
  unfold Obligations.LegalExactlyWhenOneRowMatches
  exact fun w => ⟨decode_accepts_iff_legalWord w, matchesRow_unique w⟩

end Sys2Proof

/-!
The family 30_encoding.md, Part B: the assembler (R90 to R109). First the comment cut as one recursion (R92), case (R91) and what a parsed line can say. Then the one pass over the text as two: with the names of the whole text at hand, a line's word and its label-table entry do not depend on the lines around it.
-/

namespace Sys2Proof.Machine

/-! ### The comment (R92) -/

/-- A comment marker begins at the head. -/
def StartsMarker (l : List Char) : Prop := l.head? = some ';' ∨ l.head? = some '#' ∨ l.take 2 = ['/', '/']

theorem cutAtSlashes_cons (c : Char) (cs : List Char) :
    cutAtSlashes (c :: cs) = if (c :: cs).take 2 = ['/', '/'] then [] else c :: cutAtSlashes cs := by
  cases cs <;> simp [cutAtSlashes]

theorem stripComment_of_startsMarker {line : List Char} (h : StartsMarker line) : stripComment line = [] := by
  cases line with
  | nil => rfl
  | cons c cs =>
    rcases h with h | h | h
    · obtain rfl : c = ';' := by simpa using h
      simp [stripComment, cutAtSlashes_cons, cutAtChar]
    · obtain rfl : c = '#' := by simpa using h
      simp [stripComment, cutAtSlashes_cons, cutAtChar]
    · simp only [stripComment, cutAtSlashes_cons, if_pos h, cutAtChar]

/-- A character at which no marker begins passes all three cuts. -/
theorem stripComment_cons {c : Char} {cs : List Char} (h : ¬ StartsMarker (c :: cs)) :
    stripComment (c :: cs) = c :: stripComment cs := by
  obtain ⟨hsemicolon, hhash, hslashes⟩ : c ≠ ';' ∧ c ≠ '#' ∧ (c :: cs).take 2 ≠ ['/', '/'] := by
    simpa [StartsMarker] using h
  simp only [stripComment, cutAtSlashes_cons, if_neg hslashes, cutAtChar, if_neg hsemicolon, if_neg hhash]

theorem stripComment_cuts_at_marker (line : List Char) :
    ∃ rest, line = stripComment line ++ rest ∧ (rest = [] ∨ StartsMarker rest) := by
  induction line with
  | nil => exact ⟨[], rfl, .inl rfl⟩
  | cons c cs ih =>
    by_cases h : StartsMarker (c :: cs)
    · exact ⟨c :: cs, by rw [stripComment_of_startsMarker h]; rfl, .inr h⟩
    · obtain ⟨rest, hcs, hrest⟩ := ih
      exact ⟨rest, by rw [stripComment_cons h, List.cons_append, ← hcs], hrest⟩

theorem no_marker_within_stripComment {line u v : List Char} (hline : line = u ++ v)
    (hu : u.length < (stripComment line).length) : ¬ StartsMarker v := by
  induction u generalizing line with
  | nil =>
    intro h
    subst hline
    simp [stripComment_of_startsMarker h] at hu
  | cons c u ih =>
    subst hline
    rw [List.cons_append] at hu
    by_cases h : StartsMarker (c :: (u ++ v))
    · simp [stripComment_of_startsMarker h] at hu
    · rw [stripComment_cons h] at hu
      exact ih rfl (Nat.lt_of_succ_lt_succ hu)

/-! ### Case (R91) -/

theorem lowerChar_of_capital {a b : Char} (hA : 65 ≤ a.toNat) (hZ : a.toNat ≤ 90) (hb : b.toNat = a.toNat + 32) :
    lowerChar a = lowerChar b := by
  have hlow : ¬ b.toNat ≤ 90 := by omega
  simp [lowerChar, hA, hZ, hlow, ← hb, Char.ofNat_toNat]

theorem map_eq_of_forall₂ {α β : Type} {R : α → α → Prop} {f : α → β} (hf : ∀ a b, R a b → f a = f b) {l l' : List α}
    (h : List.Forall₂ R l l') : l.map f = l'.map f := by
  have hmap : List.Forall₂ (· = ·) (l.map f) (l'.map f) := List.rel_map hf h
  rwa [List.forall₂_eq_eq_eq] at hmap

/-- The parser sees a line in lower case only. -/
theorem parseLine_congr {line line' : List Char} (h : line.map lowerChar = line'.map lowerChar) :
    parseLine line = parseLine line' := by
  unfold parseLine
  rw [h]

/-- The pass sees a line through the parser only. -/
theorem assembleFrom_congr {text text' : List (List Char)} (h : text.map parseLine = text'.map parseLine) (i : Nat)
    (names : List (List Char)) (labels : List (Nat × Nat)) :
    assembleFrom i names labels text = assembleFrom i names labels text' := by
  induction text generalizing text' i names labels with
  | nil => simp_all
  | cons line text ih =>
    obtain ⟨line', text', rfl⟩ : ∃ line' rest, text' = line' :: rest := by cases text' <;> simp_all
    obtain ⟨hline, htext⟩ : parseLine line = parseLine line' ∧ text.map parseLine = text'.map parseLine := by simpa using h
    simp only [assembleFrom, hline, ih htext]

/-! ### What a parsed line can say: an instruction whose operands fit their fields -/

/-- The line's own instruction, where it has one, has a word. -/
def ParsedLine.Fits : ParsedLine → Prop
  | .plain i => i.wellFormed = true
  | .declare _ | .jump _ _ => True

theorem ParsedLine.Fits.plain {i : Instr} (h : i.wellFormed = true) : (ParsedLine.plain i).Fits := h

/-- A parser that gives a line only when its instruction has a word. -/
def GivesFitting (x : Except AsmStop ParsedLine) : Prop := ∀ q, x = .ok q → q.Fits

theorem GivesFitting.error (stop : AsmStop) : GivesFitting (.error stop) := fun _ h => nomatch h

theorem GivesFitting.ok {q : ParsedLine} (hq : q.Fits) : GivesFitting (.ok q)
  | _, rfl => hq

theorem GivesFitting.bind {α : Type} {x : Except AsmStop α} {f : α → Except AsmStop ParsedLine}
    (hf : ∀ a, GivesFitting (f a)) : GivesFitting (x >>= f) := by
  cases x with
  | error stop => exact .error stop
  | ok a => exact hf a

theorem endOperands_givesFitting {q : ParsedLine} (hq : q.Fits) (items : List (List Char)) :
    GivesFitting (endOperands q items) := by
  cases items with
  | nil => exact .ok hq
  | cons => exact .error _

theorem oneReg_givesFitting {f : Reg → Instr} (hf : ∀ rd, (f rd).wellFormed = true) (items : List (List Char)) :
    GivesFitting (oneReg f items) :=
  .bind fun (rd, rest) => endOperands_givesFitting (.plain (hf rd)) rest

theorem twoRegs_givesFitting {f : Reg → Reg → Instr} (hf : ∀ rd rs1, (f rd rs1).wellFormed = true)
    (items : List (List Char)) : GivesFitting (twoRegs f items) :=
  .bind fun (rd, _) => .bind fun (rs1, rest) => endOperands_givesFitting (.plain (hf rd rs1)) rest

theorem threeRegs_givesFitting {f : Reg → Reg → Reg → Instr} (hf : ∀ rd rs1 rs2, (f rd rs1 rs2).wellFormed = true)
    (items : List (List Char)) : GivesFitting (threeRegs f items) :=
  .bind fun (rd, _) => .bind fun (rs1, _) => .bind fun (rs2, rest) => endOperands_givesFitting (.plain (hf rd rs1 rs2)) rest

/-- The amount is kept modulo 64, so it fits the six bits of its field (R75). -/
theorem shiftLine_givesFitting {f : Reg → Bool → Nat → Instr} (hf : ∀ rd ov sh, sh < 64 → (f rd ov sh).wellFormed = true)
    (items : List (List Char)) : GivesFitting (shiftLine f items) :=
  .bind fun (rd, _) => .bind fun (_, rest) => .bind fun amount =>
    endOperands_givesFitting (.plain (hf rd _ _ (Nat.mod_lt amount (by decide)))) rest

theorem jumpLine_givesFitting (k : JumpKind) (items : List (List Char)) : GivesFitting (jumpLine k items) :=
  .bind fun (name, rest) => endOperands_givesFitting (q := .jump k name) trivial rest

theorem buildLine_givesFitting (m : Mnemonic) (items : List (List Char)) : GivesFitting (buildLine m items) := by
  cases m with
  | debug => exact endOperands_givesFitting (.plain rfl) items
  | zero | inc | dec | not => exact oneReg_givesFitting (fun _ => rfl) items
  | mov => exact twoRegs_givesFitting (fun _ _ => rfl) items
  | add | sub | and | or | xor => exact threeRegs_givesFitting (fun _ _ _ => rfl) items
  | shl => exact shiftLine_givesFitting (f := .shl) (fun _ _ sh h => (shiftFieldFits_iff sh).2 h) items
  | shr => exact shiftLine_givesFitting (f := .shr) (fun _ _ sh h => (shiftFieldFits_iff sh).2 h) items
  | jz | jnz | j => exact jumpLine_givesFitting _ items

theorem labelLine_givesFitting (line : List Char) : GivesFitting (labelLine line) := by
  unfold labelLine
  split
  · exact .error _
  · split
    · split
      · exact .ok trivial
      · exact .error _
    · exact .error _

theorem parseLine_givesFitting (raw : List Char) : GivesFitting (parseLine raw) := by
  simp only [parseLine]
  split
  · exact .error _
  · split
    · exact .ok rfl
    · split
      · exact .bind fun items => buildLine_givesFitting _ items
      · exact labelLine_givesFitting _

/-! ### A line with its names at hand -/

/-- The names seen once the line is read (R103). -/
def ParsedLine.see (names : List (List Char)) : ParsedLine → List (List Char)
  | .plain _ => names
  | .declare name | .jump _ name => seeName names name

/-- The line's instruction, given the names that number its label (R95, R101, R105). -/
def ParsedLine.instr (names : List (List Char)) : ParsedLine → Instr
  | .plain i => i
  | .declare _ => .noop
  | .jump k name => k.instr (names.idxOf name)

/-- The label-table image once line `i` is read (R102). -/
def ParsedLine.record (names : List (List Char)) (i : Nat) (labels : List (Nat × Nat)) : ParsedLine → List (Nat × Nat)
  | .declare name => Cells.write labels (names.idxOf name) i
  | .plain _ | .jump _ _ => labels

/-- The label the line names, if it names one, is among the names. -/
def ParsedLine.NamedIn (names : List (List Char)) : ParsedLine → Prop
  | .plain _ => True
  | .declare name | .jump _ name => name ∈ names

theorem assembleLine_eq (i : Nat) (names : List (List Char)) (labels : List (Nat × Nat)) (q : ParsedLine) :
    assembleLine i names labels q =
      (encode (q.instr (q.see names)), q.see names, q.record (q.see names) i labels) := by
  cases q <;> rfl

theorem prefix_seeName (names : List (List Char)) (name : List Char) : names <+: seeName names name := by
  unfold seeName
  split
  · exact List.prefix_rfl
  · exact List.prefix_append names [name]

theorem mem_seeName (names : List (List Char)) (name : List Char) : name ∈ seeName names name := by
  unfold seeName
  split
  · assumption
  · simp

namespace ParsedLine

theorem prefix_see (names : List (List Char)) (q : ParsedLine) : names <+: q.see names := by
  cases q with
  | plain => exact List.prefix_rfl
  | declare name | jump _ name => exact prefix_seeName names name

theorem namedIn_see (names : List (List Char)) (q : ParsedLine) : q.NamedIn (q.see names) := by
  cases q with
  | plain => trivial
  | declare name | jump _ name => exact mem_seeName names name

section
variable {names names' : List (List Char)} {q : ParsedLine}

theorem NamedIn.mono (hq : q.NamedIn names) (h : names <+: names') : q.NamedIn names' := by
  cases q with
  | plain => trivial
  | declare | jump => exact h.subset hq

/-- A name keeps its number when names are added after it, and with it the line keeps its instruction. -/
theorem NamedIn.instr_eq (hq : q.NamedIn names) (h : names <+: names') : q.instr names = q.instr names' := by
  cases q with
  | plain | declare => rfl
  | jump k name => exact congrArg k.instr (h.idxOf_eq_of_mem hq)

theorem NamedIn.record_eq (hq : q.NamedIn names) (h : names <+: names') (i : Nat) (labels : List (Nat × Nat)) :
    q.record names i labels = q.record names' i labels := by
  cases q with
  | plain | jump => rfl
  | declare name => exact congrArg (Cells.write labels · i) (h.idxOf_eq_of_mem hq)

theorem instr_wellFormed (hfits : q.Fits) (hq : q.NamedIn names) (hcount : names.length ≤ 2 ^ 24) :
    (q.instr names).wellFormed = true := by
  cases q with
  | plain => exact hfits
  | declare => rfl
  | jump k name =>
    have hlid : names.idxOf name < 2 ^ 24 := (List.idxOf_lt_length_of_mem hq).trans_le hcount
    cases k <;> exact (lidFits_iff _).2 hlid

/-- A line's label entry is the line's own index, at the number of a name. -/
theorem mem_record (hq : q.NamedIn names) {i : Nat} {labels : List (Nat × Nat)} {l : Nat × Nat}
    (h : l ∈ q.record names i labels) : l ∈ labels ∨ (l.1 < names.length ∧ l.2 = i) := by
  cases q with
  | plain | jump => exact .inl h
  | declare name =>
    rcases Cells.mem_write h with h | rfl
    · exact .inl h
    · exact .inr ⟨List.idxOf_lt_length_of_mem hq, rfl⟩

/-- What a line does to the entry of a name: a declaration of the name sets it (R102). -/
theorem read_record_declare (names : List (List Char)) (i : Nat) (labels : List (Nat × Nat)) (name : List Char) :
    Cells.read ((declare name).record names i labels) (names.idxOf name) = some i :=
  Cells.read_write_same labels _ i

/-- Any other line leaves it, since two names have two numbers. -/
theorem read_record_other {name : List Char} (hname : name ∈ names) (h : q ≠ .declare name) (i : Nat)
    (labels : List (Nat × Nat)) :
    Cells.read (q.record names i labels) (names.idxOf name) = Cells.read labels (names.idxOf name) := by
  cases q with
  | plain | jump => rfl
  | declare other =>
    refine Cells.read_write_other labels i fun e => h ?_
    rw [(List.idxOf_inj hname).1 e]

end

/-- The label-table image of the parsed lines, the first of them at index `i` (R104). -/
def recordAll (names : List (List Char)) : Nat → List (Nat × Nat) → List ParsedLine → List (Nat × Nat)
  | _, labels, [] => labels
  | i, labels, q :: rest => recordAll names (i + 1) (q.record names i labels) rest

theorem mem_recordAll {names : List (List Char)} {parsed : List ParsedLine} (hnamed : ∀ q ∈ parsed, q.NamedIn names)
    {i : Nat} {labels : List (Nat × Nat)} {l : Nat × Nat} (h : l ∈ recordAll names i labels parsed) :
    l ∈ labels ∨ (l.1 < names.length ∧ l.2 < i + parsed.length) := by
  induction parsed generalizing i labels with
  | nil => exact .inl h
  | cons q rest ih =>
    obtain ⟨hq, hrest⟩ := List.forall_mem_cons.1 hnamed
    rw [List.length_cons]
    rcases ih hrest h with h | ⟨hlid, htarget⟩
    · rcases mem_record hq h with h | ⟨hlid, rfl⟩
      · exact .inl h
      · exact .inr ⟨hlid, by omega⟩
    · exact .inr ⟨hlid, by omega⟩

/-- A name's entry is the index of its last declaration, or what it was where no line declares the name (R102). -/
theorem read_recordAll {names : List (List Char)} {name : List Char} (hname : name ∈ names) (parsed : List ParsedLine)
    (i : Nat) (labels : List (Nat × Nat)) :
    (∃ d : Nat, Cells.read (recordAll names i labels parsed) (names.idxOf name) = some (i + d) ∧
      parsed[d]? = some (.declare name) ∧ ∀ d' : Nat, d < d' → parsed[d']? ≠ some (.declare name)) ∨
    (Cells.read (recordAll names i labels parsed) (names.idxOf name) = Cells.read labels (names.idxOf name) ∧
      ∀ d' : Nat, parsed[d']? ≠ some (.declare name)) := by
  induction parsed generalizing i labels with
  | nil => exact .inr ⟨rfl, by simp⟩
  | cons q rest ih =>
    rcases ih (i + 1) (q.record names i labels) with ⟨d, hread, hd, hlast⟩ | ⟨hread, hnone⟩
    · refine .inl ⟨d + 1, hread.trans (by rw [Nat.add_right_comm, Nat.add_assoc]), hd, fun d' hd' => ?_⟩
      cases d' with
      | zero => omega
      | succ d' => exact hlast d' (by omega)
    · by_cases hq : q = .declare name
      · subst hq
        refine .inl ⟨0, hread.trans (read_record_declare names i labels name), rfl, fun d' hd' => ?_⟩
        cases d' with
        | zero => omega
        | succ d' => exact hnone d'
      · refine .inr ⟨hread.trans (read_record_other hname hq i labels), fun d' => ?_⟩
        cases d' with
        | zero => simpa using hq
        | succ d' => exact hnone d'

end ParsedLine

/-! ### The one pass as two -/

/-- What a successful line of the pass says of the rest. -/
theorem assembleFrom_cons_ok {i : Nat} {names : List (List Char)} {labels : List (Nat × Nat)} {raw : List Char}
    {rest : List (List Char)} {p : Program} (h : assembleFrom i names labels (raw :: rest) = .ok p) :
    ∃ q p', parseLine raw = .ok q ∧ (q.see names).length ≤ 2 ^ 24 ∧
      assembleFrom (i + 1) (q.see names) (q.record (q.see names) i labels) rest = .ok p' ∧
      p = { p' with words := encode (q.instr (q.see names)) :: p'.words } := by
  simp only [assembleFrom, assembleLine_eq] at h
  split at h
  · cases h
  · next q hq =>
    split at h
    · cases h
    · next hcount =>
      split at h
      · cases h
      · next p' hp' =>
        cases h
        exact ⟨q, p', hq, Nat.le_of_not_lt hcount, hp', rfl⟩

/-- The text from line `i` on, assembled with all its names at hand: `parsed` is what its lines say, and each gives its word
and its label entry by itself. -/
structure AssembledWith (names : List (List Char)) (i : Nat) (labels : List (Nat × Nat)) (lines : List (List Char))
    (parsed : List ParsedLine) (p : Program) : Prop where
  parses : lines.map parseLine = parsed.map .ok
  named : ∀ q ∈ parsed, q.NamedIn names
  words_eq : p.words = parsed.map (fun q => encode (q.instr names))
  labels_eq : p.labels = ParsedLine.recordAll names i labels parsed

/-- The names seen so far only grow at their end, so a line read early has the word it would have with all of them. -/
theorem assembleFrom_assembledWith {i : Nat} {names : List (List Char)} {labels : List (Nat × Nat)}
    {lines : List (List Char)} {p : Program} (hcount : names.length ≤ 2 ^ 24)
    (h : assembleFrom i names labels lines = .ok p) :
    ∃ all parsed, names <+: all ∧ all.length ≤ 2 ^ 24 ∧ AssembledWith all i labels lines parsed p := by
  induction lines generalizing i names labels p with
  | nil =>
    cases h
    exact ⟨names, [], List.prefix_rfl, hcount, rfl, by simp, rfl, rfl⟩
  | cons raw rest ih =>
    obtain ⟨q, p', hq, hsee, hp', rfl⟩ := assembleFrom_cons_ok h
    obtain ⟨all, parsed, hprefix, hall, hrest⟩ := ih hsee hp'
    have hnamed : q.NamedIn (q.see names) := q.namedIn_see names
    refine ⟨all, q :: parsed, (q.prefix_see names).trans hprefix, hall, ?_, ?_, ?_, ?_⟩
    · rw [List.map_cons, List.map_cons, hq, hrest.parses]
    · exact List.forall_mem_cons.2 ⟨hnamed.mono hprefix, hrest.named⟩
    · rw [List.map_cons, ← hnamed.instr_eq hprefix, ← hrest.words_eq]
    · rw [hrest.labels_eq, hnamed.record_eq hprefix]
      rfl

theorem assemble_assembledWith {lines : List (List Char)} {p : Program} (h : assemble lines = .ok p) :
    ∃ names parsed, names.length ≤ 2 ^ 24 ∧ AssembledWith names 0 [] lines parsed p := by
  obtain ⟨names, parsed, -, hcount, hp⟩ := assembleFrom_assembledWith (Nat.zero_le _) h
  exact ⟨names, parsed, hcount, hp⟩

namespace AssembledWith

variable {names : List (List Char)} {i : Nat} {labels : List (Nat × Nat)} {lines : List (List Char)}
  {parsed : List ParsedLine} {p : Program}

theorem parsed_length (h : AssembledWith names i labels lines parsed p) : parsed.length = lines.length := by
  simpa using (congrArg List.length h.parses).symm

theorem getElem?_parsed (h : AssembledWith names i labels lines parsed p) (j : Nat) (q : ParsedLine) :
    parsed[j]? = some q ↔ ∃ line, lines[j]? = some line ∧ parseLine line = .ok q := by
  calc parsed[j]? = some q
    _ ↔ (parsed.map .ok : List (Except AsmStop ParsedLine))[j]? = some (.ok q) := by simp
    _ ↔ (lines.map parseLine)[j]? = some (.ok q) := by rw [h.parses]
    _ ↔ ∃ line, lines[j]? = some line ∧ parseLine line = .ok q := by simp

theorem fits (h : AssembledWith names i labels lines parsed p) {q : ParsedLine} (hq : q ∈ parsed) : q.Fits := by
  obtain ⟨j, hj⟩ := List.mem_iff_getElem?.1 hq
  obtain ⟨line, -, hline⟩ := (h.getElem?_parsed j q).1 hj
  exact parseLine_givesFitting line q hline

theorem legalWord_of_mem (h : AssembledWith names i labels lines parsed p) (hcount : names.length ≤ 2 ^ 24) {w : IWord}
    (hw : w ∈ p.words) : legalWord w = true := by
  rw [h.words_eq] at hw
  obtain ⟨q, hq, rfl⟩ := List.mem_map.1 hw
  exact legalWord_encode (ParsedLine.instr_wellFormed (h.fits hq) (h.named q hq) hcount)

theorem getElem?_words (h : AssembledWith names i labels lines parsed p) {j : Nat} {q : ParsedLine}
    (hj : parsed[j]? = some q) : p.words[j]? = some (encode (q.instr names)) := by
  rw [h.words_eq, List.getElem?_map, hj]
  rfl

end AssembledWith

/-! ### The obligations -/

/-- Settles O54: each line gives its word and its entry by itself, the words are of instructions whose operands fit. -/
theorem assemblerOutputHasOneLegalWordPerLine : Obligations.AssemblerOutputHasOneLegalWordPerLine := by
  unfold Obligations.AssemblerOutputHasOneLegalWordPerLine
  intro lines p h
  obtain ⟨names, parsed, hcount, hp⟩ := assemble_assembledWith h
  refine ⟨?_, fun j line w hline hw => ?_, fun l hl => ?_, fun w hw => hp.legalWord_of_mem hcount hw⟩
  · rw [hp.words_eq, List.length_map, hp.parsed_length]
  · obtain ⟨q, hq, rfl⟩ : ∃ q, parsed[j]? = some q ∧ encode (q.instr names) = w := by
      simpa [hp.words_eq] using hw
    obtain ⟨_, hline', hparse⟩ := (hp.getElem?_parsed j q).1 hq
    obtain rfl := Option.some.inj (hline.symm.trans hline')
    cases q with
    | plain ins => exact .inl ⟨ins, hparse, rfl⟩
    | declare name => exact .inr (.inl ⟨name, hparse, rfl⟩)
    | jump k name => exact .inr (.inr ⟨k, name, names.idxOf name, hparse, rfl⟩)
  · rw [hp.labels_eq] at hl
    rcases ParsedLine.mem_recordAll hp.named hl with hl | ⟨hlid, htarget⟩
    · cases hl
    · rw [Nat.zero_add, hp.parsed_length] at htarget
      exact ⟨hlid.trans_le hcount, htarget⟩

/-- Settles O55: the parser sees a line in lower case, and the pass sees it through the parser. -/
theorem assemblerIgnoresCase : Obligations.AssemblerIgnoresCase := by
  unfold Obligations.AssemblerIgnoresCase
  intro sameButCase
  have hchar : ∀ a b, sameButCase a b → lowerChar a = lowerChar b := by
    rintro a b (rfl | ⟨hA, hZ, hb⟩ | ⟨hA, hZ, ha⟩)
    · rfl
    · exact lowerChar_of_capital hA hZ hb
    · exact (lowerChar_of_capital hA hZ ha).symm
  have hline : ∀ line line', List.Forall₂ sameButCase line line' → parseLine line = parseLine line' := fun _ _ h =>
    parseLine_congr (map_eq_of_forall₂ hchar h)
  have htext : ∀ text text', List.Forall₂ (List.Forall₂ sameButCase) text text' → assemble text = assemble text' := fun _ _ h =>
    assembleFrom_congr (map_eq_of_forall₂ hline h) 0 [] []
  refine ⟨htext, fun line h => ?_⟩
  rw [← htext _ _ (.cons h .nil)]
  decide

/-- Settles O56: a character passes all three cuts unless a marker begins at it. -/
theorem commentIsCutAtTheEarliestMarker : Obligations.CommentIsCutAtTheEarliestMarker := by
  unfold Obligations.CommentIsCutAtTheEarliestMarker
  intro startsMarker line
  obtain ⟨rest, hline, hrest⟩ := stripComment_cuts_at_marker line
  exact ⟨rest, hline, hrest, fun u v huv hu => no_marker_within_stripComment huv hu⟩

/-- Settles O57: the label's number is its place among all names, and the entry there is that of its last declaration. -/
theorem jumpsResolveToTheLastDeclaration : Obligations.JumpsResolveToTheLastDeclaration := by
  unfold Obligations.JumpsResolveToTheLastDeclaration
  intro lines p i line k name h hline hparse
  obtain ⟨names, parsed, hcount, hp⟩ := assemble_assembledWith h
  have hjump : parsed[i]? = some (.jump k name) := (hp.getElem?_parsed i _).2 ⟨line, hline, hparse⟩
  have hname : name ∈ names := hp.named _ (List.mem_of_getElem? hjump)
  have hdeclares (d : Nat) (l : List Char) (hl : lines[d]? = some l) (hd : parsed[d]? ≠ some (.declare name)) :
      parseLine l ≠ .ok (.declare name) := fun hdecl => hd ((hp.getElem?_parsed d _).2 ⟨l, hl, hdecl⟩)
  refine ⟨names.idxOf name, hp.getElem?_words hjump, (List.idxOf_lt_length_of_mem hname).trans_le hcount, ?_⟩
  rw [hp.labels_eq]
  rcases ParsedLine.read_recordAll hname parsed 0 [] with ⟨d, hread, hd, hlast⟩ | ⟨hread, hnone⟩
  · rw [Nat.zero_add] at hread
    obtain ⟨l, hl, hdecl⟩ := (hp.getElem?_parsed d _).1 hd
    exact .inl ⟨d, l, hread, hl, hdecl, fun d' l' hlt hl' => hdeclares d' l' hl' (hlast d' hlt)⟩
  · exact .inr ⟨hread, fun d' l' hl' => hdeclares d' l' hl' (hnone d')⟩

end Sys2Proof.Machine

/-!
The family 40_system.md: noop, debug (R120, R121) and RESUME (R122). First what every instruction's statement uses: the word of an instruction whose operands fit, and the parts of the state no instruction writes. Then runs of several steps, put together from single ones, and the obligations.
-/

namespace Sys2Proof.Machine

/-! ### Word and frame of an instruction -/

theorem encodedAs_of_encode {i : Instr} {w : Nat} (hwf : i.wellFormed = true) (h : encode i = BitVec.ofNat 32 w) :
    EncodedAs i w :=
  ⟨h, h ▸ decode_encode hwf⟩

theorem ProgramKept.sameProgram {s t : State} (h : ProgramKept s t) (hcfg : t.cfg = s.cfg) (hhost : t.host = s.host)
    (hreply : t.reply = s.reply) : SameProgram s t := by
  have ⟨hicount, himem, hlt, hepoch⟩ := h
  exact ⟨hicount, himem, h.imemByte, hlt, h.ltRead, hcfg, hepoch, hhost, hreply⟩

theorem exec_keeps_hostSide {i : Instr} {s t : State} (h : exec i s = .next t) : t.host = s.host ∧ t.reply = s.reply := by
  rcases exec_next_cases h with ⟨-, rd, v, -, rfl⟩ | ⟨-, rd, v, -, rfl⟩ | ⟨-, rfl⟩ | ⟨-, rfl⟩ |
    ⟨lid, -, ⟨-, rfl | rfl⟩ | ⟨-, rfl⟩⟩ <;> exact ⟨rfl, rfl⟩

/-- No instruction writes ICOUNT, a memory, a parameter or the host's side (R47, R54, R57). -/
theorem exec_sameProgram {i : Instr} {s t : State} (h : exec i s = .next t) : SameProgram s t := by
  obtain ⟨hhost, hreply⟩ := exec_keeps_hostSide h
  exact (exec_keeps_program h).sameProgram (exec_keeps_cfg h) hhost hreply

/-! ### Runs of several steps -/

theorem stepsTo_succ {k : Nat} {s t u : State} (hstep : step s = .next u) (hrest : stepsTo k u t) :
    stepsTo (k + 1) s t := by
  have h : Host.Core.run core (k + 1) s = Host.Core.run core k u := by
    simp only [Host.Core.run, show core.step s = .next u from hstep]
  exact h.trans hrest

theorem stepsTo_one {s t : State} (h : step s = .next t) : stepsTo 1 s t := stepsTo_succ h rfl

theorem step_run {s : State} {rest : List HostMove} (hq : QuietThen s rest) (hr : s.run = .run) :
    step s = cycle { s with host := rest } := by
  rw [step_quiet hq, blockStep]
  simp only [hr]

/-- The check that R207 puts first: at N the block halts (R35). -/
theorem step_halts {s : State} {rest : List HostMove} (hq : QuietThen s rest) (hr : s.run = .run) (hp : s.pc = s.icount) :
    step s = .next (State.halt { s with host := rest }) :=
  (step_run hq hr).trans (if_pos hp)

/-! ### The obligations -/

/-- Settles O39: RESUME is `resumeRun`; a block waiting below N stands at most at N after it, and at N it halts. -/
theorem resumeAdvancesPastTheDebug : Obligations.ResumeAdvancesPastTheDebug := by
  unfold Obligations.ResumeAdvancesPastTheDebug
  intro s rest hh hr
  have hresume : step s = .next { s with pc := s.pc + 1, run := .run, host := rest } :=
    step_issue_allowed hh trivial ((allowedIn_waitOnly rfl _).2 hr)
  refine ⟨hresume, fun hc => ?_, fun hp rest' hq => ?_⟩
  · obtain ⟨hbelow, -⟩ := (runStateConsistent_of_debugWait hr).1 hc
    exact ⟨_, hresume, hbelow⟩
  · have hhalt : step { s with pc := s.pc + 1, run := .run, host := rest } =
        .next { s with pc := s.pc + 1, run := .halted, host := rest' } := step_halts hq rfl hp
    have hends : stepsTo 2 s { s with pc := s.pc + 1, run := .halted, host := rest' } :=
      stepsTo_succ hresume (stepsTo_one hhalt)
    rwa [hp] at hends

/-- Settles O1: `noop` is one `pc + 1`. -/
theorem noopOnlyAdvancesPc : Obligations.NoopOnlyAdvancesPc := by
  unfold Obligations.NoopOnlyAdvancesPc
  refine ⟨encodedAs_of_encode rfl (by decide), fun s => ?_⟩
  have hexec : exec .noop s = .next (s.jumpTo (s.pc + 1)) := rfl
  have hcontrol : SameControl s (s.jumpTo (s.pc + 1)) := ⟨rfl, rfl, rfl, exec_sameProgram hexec⟩
  exact ⟨_, hexec, rfl, s.reg_jumpTo _, rfl, rfl, hcontrol⟩

/-- Settles O2: `debug` is the breakpoint's wait, which sets the run state alone. -/
theorem debugWaitsWithAllElseUnchanged : Obligations.DebugWaitsWithAllElseUnchanged := by
  unfold Obligations.DebugWaitsWithAllElseUnchanged
  refine ⟨encodedAs_of_encode rfl (by decide), fun s => ?_⟩
  have hexec : exec .debug s = .next s.awaitHost := rfl
  have hcontrol : SameControl s s.awaitHost := ⟨rfl, rfl, rfl, exec_sameProgram hexec⟩
  exact ⟨_, hexec, rfl, rfl, State.reg_congr rfl, rfl, hcontrol⟩

end Sys2Proof.Machine

/-!
The family 41_move.md: zero and mov (R130, R131), which write a register and keep the flag. First the words of their two formats as numbers and what a plain register write does and leaves unchanged, then the obligations.
-/

namespace Sys2Proof

/-! ### The word of a register format as a number (R105) -/

theorem formatR1_eq_ofNat (op : BitVec 5) (rd : Reg) :
    formatR1 op rd = BitVec.ofNat 32 (op.toNat * 2 ^ 27 + rd.val * 2 ^ 24) := by
  rw [← formatR1_toNat, BitVec.ofNat_toNat, BitVec.setWidth_eq]

theorem formatR2_eq_ofNat (op : BitVec 5) (rd rs1 : Reg) :
    formatR2 op rd rs1 = BitVec.ofNat 32 (op.toNat * 2 ^ 27 + rd.val * 2 ^ 24 + rs1.val * 2 ^ 21) := by
  rw [← formatR2_toNat, BitVec.ofNat_toNat, BitVec.setWidth_eq]

end Sys2Proof

namespace Sys2Proof.Machine

/-! ### Completion by a plain register write -/

/-- An instruction whose effect is `writePlain` completes as R26 says: the register and `pc` change, the flag and all else stay. -/
theorem completesPlain_of_exec_writePlain {i : Instr} {s : State} {rd : Reg} {v : Word}
    (h : exec i s = .next (s.writePlain rd v)) : CompletesPlain s (s.writePlain rd v) rd v.toNat := by
  have hwritten : (s.writePlain rd v).reg rd = v := by simp
  have hothers : SameRegsBut rd s (s.writePlain rd v) := fun r hr => by simpa using State.reg_setReg_other s v hr
  have hcontrol : SameControl s (s.writePlain rd v) := ⟨rfl, rfl, rfl, exec_sameProgram h⟩
  exact ⟨congrArg BitVec.toNat hwritten, rfl, hothers, rfl, rfl, hcontrol⟩

/-! ### The obligations -/

/-- Settles O3: `zero` is the plain write of 0; its word is format R1 with opcode 2. -/
theorem zeroClearsWithoutTheFlag : Obligations.ZeroClearsWithoutTheFlag := by
  unfold Obligations.ZeroClearsWithoutTheFlag
  intro rd s
  have hexec : exec (.zero rd) s = .next (s.writePlain rd 0#64) := rfl
  exact ⟨encodedAs_of_encode rfl (formatR1_eq_ofNat 2#5 rd), _, hexec, completesPlain_of_exec_writePlain hexec⟩

/-- Settles O4: `mov` is the plain write of the value that the source holds before it; its word is format R2 with opcode 3. -/
theorem movCopiesWithoutTheFlag : Obligations.MovCopiesWithoutTheFlag := by
  unfold Obligations.MovCopiesWithoutTheFlag
  intro rd rs1 s
  have hexec : exec (.mov rd rs1) s = .next (s.writePlain rd (s.reg rs1)) := rfl
  exact ⟨encodedAs_of_encode rfl (formatR2_eq_ofNat 3#5 rd rs1), _, hexec, completesPlain_of_exec_writePlain hexec⟩

end Sys2Proof.Machine

/-!
The family 42_arith.md: add, sub, inc and dec (R141 to R144), which write a register and the zero flag of what they write. First the word of format R3 as a number, what a flagged register write does and leaves unchanged, and subtraction of words as subtraction of integers; then the obligations.
-/

namespace Sys2Proof

theorem formatR3_eq_ofNat (op : BitVec 5) (rd rs1 rs2 : Reg) :
    formatR3 op rd rs1 rs2 =
      BitVec.ofNat 32 (op.toNat * 2 ^ 27 + rd.val * 2 ^ 24 + rs1.val * 2 ^ 21 + rs2.val * 2 ^ 18) := by
  rw [← formatR3_toNat, BitVec.ofNat_toNat, BitVec.setWidth_eq]

/-- The difference of two words is the difference of their integers modulo `2 ^ n` (R140): where the latter is negative, the word's
difference is it plus the modulus, which the remainder does not see. -/
theorem toNat_sub_eq_int_emod {n : Nat} (x y : BitVec n) :
    (x - y).toNat = (((x.toNat : Int) - (y.toNat : Int)) % 2 ^ n).toNat := by
  have hshift : ((2 ^ n - y.toNat + x.toNat : Nat) : Int) = (x.toNat : Int) - (y.toNat : Int) + 2 ^ n := by
    push_cast [y.isLt.le]
    ring
  calc (x - y).toNat
      = (((2 ^ n - y.toNat + x.toNat : Nat) : Int) % (2 ^ n : Nat)).toNat := BitVec.toNat_sub x y
    _ = (((x.toNat : Int) - (y.toNat : Int)) % 2 ^ n).toNat := by
      rw [hshift, Nat.cast_pow, Nat.cast_ofNat, Int.add_emod_right]

end Sys2Proof

namespace Sys2Proof.Machine

/-! ### Completion by a flagged register write -/

/-- An instruction whose effect is `writeFlagged` completes as R25 says: the register, its flag and `pc` change, all else stays. -/
theorem completesFlagged_of_exec_writeFlagged {i : Instr} {s : State} {rd : Reg} {v : Word} {n : Nat}
    (h : exec i s = .next (s.writeFlagged rd v)) (hv : v.toNat = n) : CompletesFlagged s (s.writeFlagged rd v) rd n := by
  have hwritten : (s.writeFlagged rd v).reg rd = v := by simp
  have hflag : (s.writeFlagged rd v).zf = true ↔ n = 0 := by
    rw [← hv]
    exact (zeroFlag_eq_true v).trans BitVec.toNat_eq
  have hothers : SameRegsBut rd s (s.writeFlagged rd v) := fun r hr => by simpa using State.reg_setReg_other s v hr
  have hcontrol : SameControl s (s.writeFlagged rd v) := ⟨rfl, rfl, rfl, exec_sameProgram h⟩
  exact ⟨(congrArg BitVec.toNat hwritten).trans hv, hflag, hothers, rfl, rfl, hcontrol⟩

/-! ### What each of the four instructions writes -/

section
variable (rd rs1 rs2 : Reg) (s : State)

theorem exec_add : exec (.add rd rs1 rs2) s = .next (s.writeFlagged rd (s.reg rs1 + s.reg rs2)) := rfl
theorem exec_sub : exec (.sub rd rs1 rs2) s = .next (s.writeFlagged rd (s.reg rs1 - s.reg rs2)) := rfl
theorem exec_inc : exec (.inc rd) s = .next (s.writeFlagged rd (s.reg rd + 1#64)) := rfl
theorem exec_dec : exec (.dec rd) s = .next (s.writeFlagged rd (s.reg rd - 1#64)) := rfl

end

/-! ### The obligations -/

/-- Settles O5: `add` is the flagged write of the sum; its word is format R3 with opcode 4. -/
theorem addWritesWrappedSumAndFlag : Obligations.AddWritesWrappedSumAndFlag := by
  unfold Obligations.AddWritesWrappedSumAndFlag
  intro rd rs1 rs2 s
  have hexec := exec_add rd rs1 rs2 s
  exact ⟨encodedAs_of_encode rfl (formatR3_eq_ofNat 4#5 rd rs1 rs2), _, hexec,
    completesFlagged_of_exec_writeFlagged hexec (BitVec.toNat_add _ _)⟩

/-- Settles O6: `sub` is the flagged write of the difference; its word is format R3 with opcode 5. -/
theorem subWritesWrappedDifferenceAndFlag : Obligations.SubWritesWrappedDifferenceAndFlag := by
  unfold Obligations.SubWritesWrappedDifferenceAndFlag
  intro rd rs1 rs2 s
  have hexec := exec_sub rd rs1 rs2 s
  exact ⟨encodedAs_of_encode rfl (formatR3_eq_ofNat 5#5 rd rs1 rs2), _, hexec,
    completesFlagged_of_exec_writeFlagged hexec (toNat_sub_eq_int_emod _ _)⟩

/-- Settles O7: `inc` is the flagged write of the sum with 1; its word is format R1 with opcode 6. -/
theorem incWritesWrappedIncrementAndFlag : Obligations.IncWritesWrappedIncrementAndFlag := by
  unfold Obligations.IncWritesWrappedIncrementAndFlag
  intro rd s
  have hexec := exec_inc rd s
  exact ⟨encodedAs_of_encode rfl (formatR1_eq_ofNat 6#5 rd), _, hexec,
    completesFlagged_of_exec_writeFlagged hexec (BitVec.toNat_add _ 1#64)⟩

/-- Settles O8: `dec` is the flagged write of the difference with 1; its word is format R1 with opcode 7. -/
theorem decWritesWrappedDecrementAndFlag : Obligations.DecWritesWrappedDecrementAndFlag := by
  unfold Obligations.DecWritesWrappedDecrementAndFlag
  intro rd s
  have hexec := exec_dec rd s
  exact ⟨encodedAs_of_encode rfl (formatR1_eq_ofNat 7#5 rd), _, hexec,
    completesFlagged_of_exec_writeFlagged hexec (toNat_sub_eq_int_emod _ 1#64)⟩

/-- Settles O22: each pair writes the same register with the same value. -/
theorem incAndDecAreAddAndSubByOne : Obligations.IncAndDecAreAddAndSubByOne := by
  unfold Obligations.IncAndDecAreAddAndSubByOne
  intro rd r1 s hone
  rw [exec_inc, exec_add, exec_dec, exec_sub, hone]
  exact ⟨rfl, rfl⟩

end Sys2Proof.Machine

/-!
The family 43_logic.md: and, or, xor and not (R150 to R153), flagged writes like those of 42_arith.md. First the complement as the exclusive OR with MAX64 and what each instruction writes, then the obligations.
-/

namespace Sys2Proof

/-- Complementing is flipping every bit, that is, exclusive OR with the word of ones only: MAX64 where `n` is 64 (R153). -/
theorem toNat_not_eq_xor_max {n : Nat} (x : BitVec n) : (~~~ x).toNat = x.toNat ^^^ (2 ^ n - 1) := by
  calc (~~~ x).toNat
      = (x ^^^ BitVec.allOnes n).toNat := by rw [BitVec.xor_allOnes]
    _ = x.toNat ^^^ (2 ^ n - 1) := by rw [BitVec.toNat_xor, BitVec.toNat_allOnes]

end Sys2Proof

namespace Sys2Proof.Machine

/-! ### What each of the four bitwise instructions writes -/

section
variable (rd rs1 rs2 : Reg) (s : State)

theorem exec_and : exec (.and rd rs1 rs2) s = .next (s.writeFlagged rd (s.reg rs1 &&& s.reg rs2)) := rfl
theorem exec_or : exec (.or rd rs1 rs2) s = .next (s.writeFlagged rd (s.reg rs1 ||| s.reg rs2)) := rfl
theorem exec_xor : exec (.xor rd rs1 rs2) s = .next (s.writeFlagged rd (s.reg rs1 ^^^ s.reg rs2)) := rfl
theorem exec_not : exec (.not rd) s = .next (s.writeFlagged rd (~~~ s.reg rd)) := rfl

end

/-! ### The obligations -/

/-- Settles O9: `and` is the flagged write of the bitwise AND; its word is format R3 with opcode 8. -/
theorem andWritesBitwiseAndFlag : Obligations.AndWritesBitwiseAndFlag := by
  unfold Obligations.AndWritesBitwiseAndFlag
  intro rd rs1 rs2 s
  have hexec := exec_and rd rs1 rs2 s
  exact ⟨encodedAs_of_encode rfl (formatR3_eq_ofNat 8#5 rd rs1 rs2), _, hexec,
    completesFlagged_of_exec_writeFlagged hexec (BitVec.toNat_and _ _)⟩

/-- Settles O10: `or` is the flagged write of the bitwise OR; its word is format R3 with opcode 9. -/
theorem orWritesBitwiseOrAndFlag : Obligations.OrWritesBitwiseOrAndFlag := by
  unfold Obligations.OrWritesBitwiseOrAndFlag
  intro rd rs1 rs2 s
  have hexec := exec_or rd rs1 rs2 s
  exact ⟨encodedAs_of_encode rfl (formatR3_eq_ofNat 9#5 rd rs1 rs2), _, hexec,
    completesFlagged_of_exec_writeFlagged hexec (BitVec.toNat_or _ _)⟩

/-- Settles O11: `xor` is the flagged write of the bitwise exclusive OR; its word is format R3 with opcode 10. -/
theorem xorWritesBitwiseXorAndFlag : Obligations.XorWritesBitwiseXorAndFlag := by
  unfold Obligations.XorWritesBitwiseXorAndFlag
  intro rd rs1 rs2 s
  have hexec := exec_xor rd rs1 rs2 s
  exact ⟨encodedAs_of_encode rfl (formatR3_eq_ofNat 10#5 rd rs1 rs2), _, hexec,
    completesFlagged_of_exec_writeFlagged hexec (BitVec.toNat_xor _ _)⟩

/-- Settles O12: `not` is the flagged write of the complement; its word is format R1 with opcode 11. -/
theorem notWritesComplementAndFlag : Obligations.NotWritesComplementAndFlag := by
  unfold Obligations.NotWritesComplementAndFlag
  intro rd s
  have hexec := exec_not rd s
  exact ⟨encodedAs_of_encode rfl (formatR1_eq_ofNat 11#5 rd), _, hexec,
    completesFlagged_of_exec_writeFlagged hexec (toNat_not_eq_xor_max _)⟩

end Sys2Proof.Machine

/-!
The family 44_shift.md: shl and shr (R161, R162), plain writes of what the shifter gives (R160). First the word of format SH as a number, the shifter as arithmetic on integers, and what the two instructions write; then the obligations.
-/

namespace Sys2Proof

theorem formatSH_eq_ofNat (op : BitVec 5) (rd : Reg) (ov : Bool) {sh : Nat} (hs : sh < 64) :
    formatSH op rd ov sh = BitVec.ofNat 32 (op.toNat * 2 ^ 27 + rd.val * 2 ^ 24 + ov.toNat * 2 ^ 6 + sh) := by
  have hword := formatSH_toNat op rd ov sh
  rw [Nat.mod_eq_of_lt hs] at hword
  rw [← hword, BitVec.ofNat_toNat, BitVec.setWidth_eq]

end Sys2Proof

namespace Sys2Proof.Machine

/-! ### The shifter as arithmetic (R160) -/

theorem shiftResult_left_toNat (policy : ShiftPolicy) (v : Word) (ov : Bool) (sh : Nat) :
    (shiftResult policy .left v ov sh).toNat =
      if policy = .zero ∧ ov = true then 0 else v.toNat * 2 ^ sh % 2 ^ 64 := by
  have hshift : (v <<< sh).toNat = v.toNat * 2 ^ sh % 2 ^ 64 := by rw [BitVec.toNat_shiftLeft, Nat.shiftLeft_eq]
  match policy, ov with
  | .zero, true => rfl
  | .zero, false | .mod64, true | .mod64, false => exact hshift

theorem shiftResult_right_toNat (policy : ShiftPolicy) (v : Word) (ov : Bool) (sh : Nat) :
    (shiftResult policy .right v ov sh).toNat = if policy = .zero ∧ ov = true then 0 else v.toNat / 2 ^ sh := by
  have hshift : (v >>> sh).toNat = v.toNat / 2 ^ sh := by rw [BitVec.toNat_ushiftRight, Nat.shiftRight_eq_div_pow]
  match policy, ov with
  | .zero, true => rfl
  | .zero, false | .mod64, true | .mod64, false => exact hshift

/-! ### What the two instructions write -/

section
variable (rd : Reg) (ov : Bool) (sh : Nat) (s : State)

theorem exec_shl :
    exec (.shl rd ov sh) s = .next (s.writePlain rd (shiftResult s.cfg.shiftPolicy .left (s.reg rd) ov sh)) := rfl

theorem exec_shr :
    exec (.shr rd ov sh) s = .next (s.writePlain rd (shiftResult s.cfg.shiftPolicy .right (s.reg rd) ov sh)) := rfl

end

/-! ### The obligations -/

/-- Settles O13: `shl` is the plain write of the shifter's left result; its word is format SH with opcode 12. -/
theorem shlShiftsLeftUnderThePolicy : Obligations.ShlShiftsLeftUnderThePolicy := by
  unfold Obligations.ShlShiftsLeftUnderThePolicy
  intro rd ov sh s hsh
  have hexec := exec_shl rd ov sh s
  have hdone := completesPlain_of_exec_writePlain hexec
  rw [shiftResult_left_toNat] at hdone
  exact ⟨encodedAs_of_encode ((shiftFieldFits_iff sh).2 hsh) (formatSH_eq_ofNat 12#5 rd ov hsh), _, hexec, hdone⟩

/-- Settles O14: `shr` is the plain write of the shifter's right result; its word is format SH with opcode 13. -/
theorem shrShiftsRightUnderThePolicy : Obligations.ShrShiftsRightUnderThePolicy := by
  unfold Obligations.ShrShiftsRightUnderThePolicy
  intro rd ov sh s hsh
  have hexec := exec_shr rd ov sh s
  have hdone := completesPlain_of_exec_writePlain hexec
  rw [shiftResult_right_toNat] at hdone
  exact ⟨encodedAs_of_encode ((shiftFieldFits_iff sh).2 hsh) (formatSH_eq_ofNat 13#5 rd ov hsh), _, hexec, hdone⟩

/-- Settles O18: `ov` matters under ZERO alone, and where it is 0 the field `sh` is the whole amount. -/
theorem shifterFollowsThePolicyOnAmounts : Obligations.ShifterFollowsThePolicyOnAmounts := by
  unfold Obligations.ShifterFollowsThePolicyOnAmounts
  refine ⟨rfl, fun v amount _ => ?_⟩
  simp only [shiftResult_left_toNat, shiftResult_right_toNat]
  rcases Nat.lt_or_ge amount 64 with hbelow | hfrom
  · simp [Nat.mod_eq_of_lt hbelow, Nat.not_le.2 hbelow]
  · simp [hfrom]

end Sys2Proof.Machine

/-!
The family 45_jump.md: jz, jnz and j (R171 to R173), one resolved jump under three conditions. First the word of format L as a number, what the jump does with a valid entry and without one, fault entry as a record (R201), and the step beyond the last index; then the obligations.
-/

namespace Sys2Proof

theorem formatL_eq_ofNat (op : BitVec 5) {lid : Nat} (hl : lid < 2 ^ 24) :
    formatL op lid = BitVec.ofNat 32 (op.toNat * 2 ^ 27 + lid) := by
  have hword := formatL_toNat op lid
  rw [Nat.mod_eq_of_lt hl] at hword
  rw [← hword, BitVec.ofNat_toNat, BitVec.setWidth_eq]

end Sys2Proof

namespace Sys2Proof.Machine

/-! ### The resolved jump (R170) and fault entry (R201) -/

theorem State.jumpIf_of_valid {s : State} {lid : Nat} (hv : (s.ltRead lid).valid = true) (taken : Bool) :
    s.jumpIf taken lid = s.jumpTo (if taken = true then (s.ltRead lid).target else s.pc + 1) := by
  cases taken <;> simp [State.jumpIf, State.resolve_eq, hv]

theorem State.jumpIf_of_invalid {s : State} {lid : Nat} (hv : (s.ltRead lid).valid = false) (taken : Bool) :
    s.jumpIf taken lid = s.raise .unknownLabel (BitVec.ofNat 32 lid) := by
  simp [State.jumpIf, State.resolve_eq, hv]

/-- Fault entry writes its record and nothing else (R201). -/
theorem faultRecorded_raise (s : State) (c : Cause) (info : IWord) : FaultRecorded s (s.raise c info) c info.toNat := by
  have hprogram : ProgramKept s (s.raise c info) := ⟨rfl, rfl, rfl, rfl⟩
  exact ⟨rfl, rfl, rfl, rfl, s.reg_raise c info, rfl, rfl, hprogram.sameProgram rfl rfl rfl⟩

theorem completesJump_of_exec_jumpTo {i : Instr} {s : State} {n : Nat} (h : exec i s = .next (s.jumpTo n)) :
    CompletesJump s (s.jumpTo n) n := by
  have hcontrol : SameControl s (s.jumpTo n) := ⟨rfl, rfl, rfl, exec_sameProgram h⟩
  exact ⟨rfl, s.reg_jumpTo n, rfl, rfl, hcontrol⟩

section
variable {i : Instr} {s : State} {lid : Nat} {taken : Bool}

theorem exec_jumpIf_completes (h : exec i s = .next (s.jumpIf taken lid)) (hv : (s.ltRead lid).valid = true) :
    ∃ t, exec i s = .next t ∧ CompletesJump s t (if taken = true then (s.ltRead lid).target else s.pc + 1) := by
  rw [State.jumpIf_of_valid hv] at h
  exact ⟨_, h, completesJump_of_exec_jumpTo h⟩

/-- The information word is the identifier, which its 32 bits hold (R204). -/
theorem exec_jumpIf_faults (h : exec i s = .next (s.jumpIf taken lid)) (hl : lid < 2 ^ 24)
    (hv : (s.ltRead lid).valid = false) : ∃ t, exec i s = .next t ∧ FaultRecorded s t .unknownLabel lid := by
  rw [State.jumpIf_of_invalid hv] at h
  have hinfo : (BitVec.ofNat 32 lid).toNat = lid := Nat.mod_eq_of_lt (by omega)
  have hrecord := faultRecorded_raise s .unknownLabel (BitVec.ofNat 32 lid)
  rw [hinfo] at hrecord
  exact ⟨_, h, hrecord⟩

theorem exec_jumpTaken (h : JumpTaken i lid s) (hv : (s.ltRead lid).valid = true) :
    exec i s = .next (s.jumpTo (s.ltRead lid).target) := by
  have hjump : i = .jz lid ∨ i = .jnz lid ∨ i = .j lid := h.imp And.left (Or.imp_left And.left)
  obtain ⟨taken, htaken, hexec⟩ := exec_jump hjump s
  rw [hexec, State.jumpIf_of_valid hv, if_pos (htaken.2 h)]

end

/-! ### The condition of each of the three jumps -/

section
variable (lid : Nat) (s : State)

theorem exec_jz : exec (.jz lid) s = .next (s.jumpIf s.zf lid) := rfl
theorem exec_jnz : exec (.jnz lid) s = .next (s.jumpIf (!s.zf) lid) := rfl
theorem exec_j : exec (.j lid) s = .next (s.jumpIf true lid) := rfl

end

/-! ### The step beyond the last index -/

/-- The check that R207 puts second: above N the block raises PC_RANGE (R205). -/
theorem step_raises_pcRange {s : State} {rest : List HostMove} (hq : QuietThen s rest) (hr : s.run = .run)
    (hp : s.icount < s.pc) : step s = .next (State.raise { s with host := rest } .pcRange 0#32) :=
  (step_run hq hr).trans ((if_neg hp.ne').trans (if_pos hp))

/-! ### The obligations -/

/-- Settles O15: `jz` is the resolved jump on the flag; its word is format L with opcode 14. -/
theorem jzResolvesThenJumpsOnZero : Obligations.JzResolvesThenJumpsOnZero := by
  unfold Obligations.JzResolvesThenJumpsOnZero
  intro lid s hl
  have hexec := exec_jz lid s
  exact ⟨encodedAs_of_encode ((lidFits_iff lid).2 hl) (formatL_eq_ofNat 14#5 hl), exec_jumpIf_completes hexec,
    exec_jumpIf_faults hexec hl⟩

/-- Settles O16: `jnz` is the resolved jump on the complement of the flag; its word is format L with opcode 15. -/
theorem jnzResolvesThenJumpsOnNonzero : Obligations.JnzResolvesThenJumpsOnNonzero := by
  unfold Obligations.JnzResolvesThenJumpsOnNonzero
  intro lid s hl
  have hexec := exec_jnz lid s
  have hcompletes := exec_jumpIf_completes hexec
  simp only [Bool.not_eq_true'] at hcompletes
  exact ⟨encodedAs_of_encode ((lidFits_iff lid).2 hl) (formatL_eq_ofNat 15#5 hl), hcompletes, exec_jumpIf_faults hexec hl⟩

/-- Settles O17: `j` is the resolved jump without a condition; its word is format L with opcode 16. -/
theorem jResolvesThenJumpsAlways : Obligations.JResolvesThenJumpsAlways := by
  unfold Obligations.JResolvesThenJumpsAlways
  intro lid s hl
  have hexec := exec_j lid s
  exact ⟨encodedAs_of_encode ((lidFits_iff lid).2 hl) (formatL_eq_ofNat 16#5 hl), exec_jumpIf_completes hexec,
    exec_jumpIf_faults hexec hl⟩

/-- Settles O33: the jump itself lands in RUN at its target whatever N is (R174); the next step's checks end the run there. -/
theorem jumpBeyondTheProgramEndsAtTheNextStep : Obligations.JumpBeyondTheProgramEndsAtTheNextStep := by
  unfold Obligations.JumpBeyondTheProgramEndsAtTheNextStep
  intro s lid rest rest' hq hq' hr hp hjump hv
  have htaken : ∃ i, decode (s.ifetch s.pc) = .ok i ∧ JumpTaken i lid { s with host := rest } := by
    rcases hjump with hd | ⟨hd, hz⟩ | ⟨hd, hz⟩
    · exact ⟨_, hd, .inr (.inr rfl)⟩
    · exact ⟨_, hd, .inl ⟨rfl, hz⟩⟩
    · exact ⟨_, hd, .inr (.inl ⟨rfl, hz⟩)⟩
  obtain ⟨i, hd, hi⟩ := htaken
  have hland : step s = .next { s with pc := (s.ltRead lid).target, host := rest } :=
    (step_decoded hq hr hp hd).trans (exec_jumpTaken hi hv)
  have hquiet : QuietThen { s with pc := (s.ltRead lid).target, host := rest } rest' := hq'
  refine ⟨fun hat => ?_, fun habove => ?_⟩
  · exact stepsTo_succ hland (stepsTo_one (step_halts hquiet hr hat))
  · exact ⟨_, stepsTo_succ hland (stepsTo_one (step_raises_pcRange hquiet hr habove)), faultRecorded_raise _ .pcRange 0#32⟩

end Sys2Proof.Machine

/-!
The family 60_exceptions.md: the four faults (R200 to R208) and the states that wait for the host (R216). The table of R200 is one relation, `FaultDue`; first the two lemmas that tie it to the step: a fault that is due is entered, and a step that enters no due fault leaves the record as it was or as RESET leaves it. Then the obligations.
-/

namespace Sys2Proof.Machine

/-! ### The words that raise a fault -/

theorem decode_rejects_iff (w : IWord) : (∃ e, decode w = .error e) ↔ legalWord w = false := by
  rw [← Bool.not_eq_true, ← decode_accepts_iff_legalWord]
  cases decode w <;> simp

theorem decode_jump_iff {w : IWord} {lid : Nat} :
    (decode w = .ok (.jz lid) ∨ decode w = .ok (.jnz lid) ∨ decode w = .ok (.j lid)) ↔
    ∃ i, decode w = .ok i ∧ (i = .jz lid ∨ i = .jnz lid ∨ i = .j lid) := by
  constructor
  · rintro (hd | hd | hd)
    · exact ⟨_, hd, .inl rfl⟩
    · exact ⟨_, hd, .inr (.inl rfl)⟩
    · exact ⟨_, hd, .inr (.inr rfl)⟩
  · rintro ⟨i, hd, rfl | rfl | rfl⟩
    · exact .inl hd
    · exact .inr (.inl hd)
    · exact .inr (.inr hd)

/-- An identifier read from a word has 24 bits, so FAULT_INFO holds it whole (R204). -/
theorem toNat_ofNat_lid_of_decode {w : IWord} {lid : Nat}
    (h : decode w = .ok (.jz lid) ∨ decode w = .ok (.jnz lid) ∨ decode w = .ok (.j lid)) :
    (BitVec.ofNat 32 lid).toNat = lid := by
  obtain ⟨i, hd, hi⟩ := decode_jump_iff.1 h
  obtain ⟨hwf, -⟩ := encode_of_decode hd
  have hfits : lidFits lid = true := by
    rcases hi with rfl | rfl | rfl <;> exact hwf
  have hlid := (lidFits_iff lid).1 hfits
  exact Nat.mod_eq_of_lt (by omega)

/-! ### The table of faults (R200) -/

/-- The next step of `s` is to raise a fault, with its cause and its information: one constructor per row of R200. `rest` are
the host's moves after that step. -/
inductive FaultDue (s : State) (rest : List HostMove) : Cause → IWord → Prop
  | illegalInstruction (hq : QuietThen s rest) (hr : s.run = .run) (hp : s.pc < s.icount)
      (hw : legalWord (s.ifetch s.pc) = false) : FaultDue s rest .illegalInstruction (s.ifetch s.pc)
  | unknownLabel (lid : Nat) (hq : QuietThen s rest) (hr : s.run = .run) (hp : s.pc < s.icount)
      (hd : decode (s.ifetch s.pc) = .ok (.jz lid) ∨ decode (s.ifetch s.pc) = .ok (.jnz lid) ∨
        decode (s.ifetch s.pc) = .ok (.j lid))
      (hv : (s.ltRead lid).valid = false) : FaultDue s rest .unknownLabel (BitVec.ofNat 32 lid)
  | pcRange (hq : QuietThen s rest) (hr : s.run = .run) (hp : s.icount < s.pc) : FaultDue s rest .pcRange 0#32
  | debugInputFailure (hh : s.host = .issue .inputFail :: rest) (hr : s.run = .debugWait) :
      FaultDue s rest .debugInputFailure 0#32

theorem cycle_rejected {s : State} (hp : s.pc < s.icount) (hw : legalWord (s.ifetch s.pc) = false) :
    cycle s = .next (s.raise .illegalInstruction (s.ifetch s.pc)) := by
  obtain ⟨e, hd⟩ := (decode_rejects_iff _).2 hw
  unfold cycle fetchDecodeExecute
  rw [if_neg (by omega), if_neg (by omega), hd]

/-- A fault that is due is entered by the next step (R201). -/
theorem FaultDue.step_eq {s : State} {rest : List HostMove} {c : Cause} {info : IWord} (h : FaultDue s rest c info) :
    step s = .next (State.raise { s with host := rest } c info) := by
  cases h with
  | illegalInstruction hq hr hp hw => exact (step_run hq hr).trans (cycle_rejected (s := { s with host := rest }) hp hw)
  | unknownLabel lid hq hr hp hd hv =>
    obtain ⟨i, hd, hi⟩ := decode_jump_iff.1 hd
    obtain ⟨taken, -, hexec⟩ := exec_jump hi { s with host := rest }
    have hraise := State.jumpIf_of_invalid (s := { s with host := rest }) hv taken
    rw [step_decoded hq hr hp hd, hexec, hraise]
  | pcRange hq hr hp => exact step_raises_pcRange hq hr hp
  | debugInputFailure hh hr => exact step_issue_allowed hh trivial ((allowedIn_waitOnly rfl _).2 hr)

theorem FaultDue.step_records {s : State} {rest : List HostMove} {c : Cause} {info : IWord} (h : FaultDue s rest c info) :
    ∃ t, step s = .next t ∧ FaultRecorded { s with host := rest } t c info.toNat :=
  ⟨_, h.step_eq, faultRecorded_raise _ c info⟩

/-! ### Only a fault that is due is entered -/

/-- The step did not enter FAULTED, and wrote CAUSE at most as RESET does. -/
def NoFaultEntered (s t : State) : Prop := (t.run = .faulted → s.run = .faulted) ∧ (t.cause = s.cause ∨ t.cause = .none)

theorem NoFaultEntered.of_eq {s t : State} (hr : t.run = s.run) (hc : t.cause = s.cause) : NoFaultEntered s t :=
  ⟨fun h => hr ▸ h, .inl hc⟩

theorem NoFaultEntered.of_ne {s t : State} (hr : t.run ≠ .faulted) (hc : t.cause = s.cause ∨ t.cause = .none) :
    NoFaultEntered s t :=
  ⟨fun h => absurd h hr, hc⟩

theorem exec_fault_cases {i : Instr} {s t : State} (h : exec i s = .next t) :
    (∃ lid, (i = .jz lid ∨ i = .jnz lid ∨ i = .j lid) ∧ (s.ltRead lid).valid = false ∧
      t = s.raise .unknownLabel (BitVec.ofNat 32 lid)) ∨
    NoFaultEntered s t := by
  rcases exec_next_cases h with ⟨-, rd, v, -, rfl⟩ | ⟨-, rd, v, -, rfl⟩ | ⟨-, rfl⟩ | ⟨-, rfl⟩ |
    ⟨lid, hi, ⟨-, rfl | rfl⟩ | ⟨hv, e⟩⟩
  · exact .inr (.of_eq rfl rfl)
  · exact .inr (.of_eq rfl rfl)
  · exact .inr (.of_eq rfl rfl)
  · exact .inr (.of_ne (by simp) (.inl rfl))
  · exact .inr (.of_eq rfl rfl)
  · exact .inr (.of_eq rfl rfl)
  · exact .inl ⟨lid, hi, hv, e⟩

theorem applyTx_fault_cases {s : State} (tx : HostTx) : tx = .inputFail ∨ NoFaultEntered s (s.applyTx tx) := by
  cases tx with
  | inputFail => exact .inl rfl
  | reset => exact .inr (.of_ne (by simp [State.applyTx]) (.inr rfl))
  | start | resume => exact .inr (.of_ne (by simp [State.applyTx]) (.inl rfl))
  | loadImem | loadLt | setIcount | preload | read => exact .inr (.of_eq rfl rfl)

/-- Everything a step can do to the fault record. -/
theorem step_fault_cases {s t : State} (h : step s = .next t) :
    (∃ rest c info, FaultDue s rest c info ∧ t = State.raise { s with host := rest } c info) ∨ NoFaultEntered s t := by
  rcases step_next_cases h with ⟨tx, rest, hh, -, ⟨ha, rfl⟩ | ⟨-, rfl⟩⟩ |
    ⟨rest, hq, ⟨-, rfl⟩ | ⟨-, -, rfl⟩ | ⟨hr, hp, e⟩ | ⟨hr, hp, hd, e⟩ | ⟨hr, hp, i, hd, he⟩⟩
  · rcases applyTx_fault_cases (s := { s with host := rest }) tx with rfl | hno
    · exact .inl ⟨rest, _, _, .debugInputFailure hh ((allowedIn_waitOnly rfl _).1 ha), rfl⟩
    · exact .inr hno
  · exact .inr (.of_eq rfl rfl)
  · exact .inr (.of_eq rfl rfl)
  · exact .inr (.of_ne (by simp) (.inl rfl))
  · exact .inl ⟨rest, _, _, .pcRange hq hr hp, e⟩
  · exact .inl ⟨rest, _, _, .illegalInstruction hq hr hp ((decode_rejects_iff _).1 hd), e⟩
  · rcases exec_fault_cases he with ⟨lid, hi, hv, e⟩ | hno
    · exact .inl ⟨rest, _, _, .unknownLabel lid hq hr hp (decode_jump_iff.2 ⟨i, hd, hi⟩) hv, e⟩
    · exact .inr hno

theorem step_enters_faulted {s t : State} (h : step s = .next t) (hs : s.run ≠ .faulted) (ht : t.run = .faulted) :
    ∃ rest c info, FaultDue s rest c info ∧ t = State.raise { s with host := rest } c info :=
  (step_fault_cases h).resolve_right fun hno => hs (hno.1 ht)

/-! ### Waiting (R216) -/

theorem blockUnchanged_hostSide (s : State) (rest : List HostMove) (a : Option HostView) :
    BlockUnchanged s { s with host := rest, reply := a } :=
  ⟨rfl, rfl, rfl, rfl, rfl, rfl, rfl, rfl, rfl, rfl, rfl, rfl⟩

theorem allowedIn_outside_idle {tx : HostTx} {r : RunState} (ha : HostTx.allowedIn tx r = true) (hr : r ≠ .idle) :
    tx = .reset ∨ tx = .read ∨ (r = .debugWait ∧ (tx = .resume ∨ tx = .inputFail)) := by
  cases tx with
  | reset => exact .inl rfl
  | read => exact .inr (.inl rfl)
  | resume => exact .inr (.inr ⟨(allowedIn_waitOnly rfl r).1 ha, .inl rfl⟩)
  | inputFail => exact .inr (.inr ⟨(allowedIn_waitOnly rfl r).1 ha, .inr rfl⟩)
  | loadImem | loadLt | setIcount | preload | start => exact absurd ((allowedIn_idleOnly rfl r).1 ha) hr

/-- A block that does not run makes no step of its own. -/
theorem step_notRun_cases {s t : State} (h : step s = .next t) (hr : s.run ≠ .run) :
    (∃ tx rest, s.host = .issue tx :: rest ∧ HostTx.allowedIn tx s.run = true ∧
      t = State.applyTx { s with host := rest } tx) ∨
    ∃ rest, t = { s with host := rest } := by
  rcases step_next_cases h with ⟨tx, rest, hh, -, ⟨ha, e⟩ | ⟨-, e⟩⟩ | ⟨rest, -, ⟨-, e⟩ | hrow⟩
  · exact .inl ⟨tx, rest, hh, ha, e⟩
  · exact .inr ⟨rest, e⟩
  · exact .inr ⟨rest, e⟩
  · have hrun : s.run = .run := by
      rcases hrow with ⟨hrun, -⟩ | ⟨hrun, -⟩ | ⟨hrun, -⟩ | ⟨hrun, -⟩ <;> exact hrun
    exact absurd hrun hr

/-! ### The obligations -/

/-- Settles O29: in RUN each row of the table is due exactly under its check, so the step enters it; in the other direction
DEBUG_INPUT_FAILURE is due in DEBUG_WAIT only. -/
theorem stepChecksInOrder : Obligations.StepChecksInOrder := by
  unfold Obligations.StepChecksInOrder
  refine ⟨fun s t h hc => ?_, fun s rest hq hr => ⟨fun hp => ?_, fun hp => ?_, fun hp hw => ?_, fun lid hp hd hv => ?_⟩⟩
  · rcases step_fault_cases h with ⟨rest, c, info, hdue, rfl⟩ | ⟨-, hsame | hnone⟩
    · obtain rfl : c = .debugInputFailure := hc
      cases hdue with
      | debugInputFailure _ hr => exact .inr hr
    · exact .inl (hsame ▸ hc)
    · exact absurd (hnone.symm.trans hc) (by decide)
  · exact step_halts hq hr hp
  · exact (FaultDue.pcRange hq hr hp).step_records
  · exact (FaultDue.illegalInstruction hq hr hp hw).step_records
  · have hrecords := (FaultDue.unknownLabel lid hq hr hp hd hv).step_records
    rwa [toNat_ofNat_lid_of_decode hd] at hrecords

/-- Settles O31: a step that enters FAULTED enters a fault that was due, and the rows of that relation are those of the table. -/
theorem faultsAreTheFourOfTheTable : Obligations.FaultsAreTheFourOfTheTable := by
  unfold Obligations.FaultsAreTheFourOfTheTable
  intro s t h hs ht
  obtain ⟨rest, c, info, hdue, rfl⟩ := step_enters_faulted h hs ht
  cases hdue with
  | illegalInstruction _ hr hp hw => exact .inl ⟨hr, hp, hw, rfl, rfl⟩
  | unknownLabel lid _ hr hp hd hv =>
    exact .inr (.inl ⟨hr, hp, rfl, lid, hd, hv, toNat_ofNat_lid_of_decode hd⟩)
  | pcRange _ hr hp => exact .inr (.inr (.inl ⟨hr, hp, rfl, rfl⟩))
  | debugInputFailure hh hr => exact .inr (.inr (.inr ⟨hr, ⟨rest, hh⟩, rfl, rfl⟩))

/-- Settles O32: FAULTED is entered by `raise` alone, from the state of that step. -/
theorem faultsArePrecise : Obligations.FaultsArePrecise := by
  unfold Obligations.FaultsArePrecise
  intro s t h hs ht
  obtain ⟨rest, c, info, -, rfl⟩ := step_enters_faulted h hs ht
  exact ⟨State.reg_congr rfl, rfl, rfl, rfl, rfl, rfl, rfl⟩

/-- Settles O45: none of the three states runs, and of the transactions allowed in them only READ is left, which writes the
host's side. -/
theorem waitAndEndStatesKeepAllState : Obligations.WaitAndEndStatesKeepAllState := by
  unfold Obligations.WaitAndEndStatesKeepAllState
  intro s t h hreset hwait
  have hstill : s.run ≠ .run ∧ s.run ≠ .idle := by
    rcases hwait with hr | hr | ⟨hr, -⟩ <;> simp [hr]
  obtain ⟨hnotRun, hnotIdle⟩ := hstill
  rcases step_notRun_cases h hnotRun with ⟨tx, rest, hh, ha, rfl⟩ | ⟨rest, rfl⟩
  · have hissues : HostIssues s tx := ⟨rest, hh⟩
    rcases allowedIn_outside_idle ha hnotIdle with rfl | rfl | ⟨hr, htx⟩
    · exact absurd hissues hreset
    · exact blockUnchanged_hostSide s rest (some s.view)
    · have hleft : ¬ HostIssues s .resume ∧ ¬ HostIssues s .inputFail := by simpa [hr] using hwait
      rcases htx with rfl | rfl
      · exact absurd hissues hleft.1
      · exact absurd hissues hleft.2
  · exact blockUnchanged_hostSide s rest s.reply

/-- Settles O30: `raise` writes the record alone; the state it leaves waits, and READ is allowed in it. -/
theorem faultEntryRecordsAndFreezes : Obligations.FaultEntryRecordsAndFreezes := by
  unfold Obligations.FaultEntryRecordsAndFreezes
  intro s c info
  refine ⟨faultRecorded_raise s c info, fun rest hq => step_quiet hq, fun rest hh => ?_⟩
  exact step_issue_allowed (s := s.raise c info) hh trivial rfl

/-- Settles O40: INPUT_FAIL in DEBUG_WAIT is the table's fourth row. -/
theorem inputFailRaisesAtTheDebug : Obligations.InputFailRaisesAtTheDebug := by
  unfold Obligations.InputFailRaisesAtTheDebug
  intro s rest hh hr
  exact (FaultDue.debugInputFailure hh hr).step_records

end Sys2Proof.Machine

/-!
The family 70_reset_and_hazards.md: the reset table (R230), START and the boot (R232 to R234), the loader premises (R235), and the words of the test vectors. First a started run within the premises: `pc` stays in `0..N`, no fault of the loader's making becomes due, and no step reads unloaded memory. Then the boot: what each group of its transactions leaves in the state, and the obligations.
-/

namespace Sys2Proof.Machine

/-! ### The loader premises (R235) depend on the program alone -/

theorem State.loaded_congr {s t : State} (h : t.imem = s.imem) (i : Nat) : t.loaded i = s.loaded i := by
  simp [State.loaded, h]

theorem LoaderPremises.congr {s t : State} (h : LoaderPremises s) (hcfg : t.cfg = s.cfg) (hicount : t.icount = s.icount)
    (himem : t.imem = s.imem) (hlt : t.lt = s.lt) : LoaderPremises t := by
  obtain ⟨hfits, hloaded, htarget⟩ := h
  refine ⟨by rwa [hcfg, hicount], fun i hi => ?_, fun lid hv => ?_⟩
  · rw [State.loaded_congr himem]
    exact hloaded i (hicount ▸ hi)
  · rw [State.ltRead_congr hlt] at hv ⊢
    exact hicount ▸ htarget lid hv

/-! ### The program counter stays in `0..N` (R33) -/

/-- `pc` is in `0..N`, and below N where the block waits at a `debug`. -/
def PcWithin (s : State) : Prop := s.pc ≤ s.icount ∧ (s.run = .debugWait → s.pc < s.icount)

theorem pcWithin_of_not_waiting {s : State} (hr : s.run ≠ .debugWait) (hp : s.pc ≤ s.icount) : PcWithin s :=
  ⟨hp, fun h => absurd h hr⟩

/-- An instruction below N advances to N at most, waits where it stands, or jumps to a target, which P3 puts below N. -/
theorem exec_keeps_pcWithin {i : Instr} {s t : State} (hr : s.run = .run) (hp : s.pc < s.icount)
    (htarget : ∀ lid, (s.ltRead lid).valid = true → (s.ltRead lid).target < s.icount) (h : exec i s = .next t) :
    PcWithin t := by
  have hnotWaiting : s.run ≠ .debugWait := by simp [hr]
  rcases exec_next_cases h with ⟨-, rd, v, -, rfl⟩ | ⟨-, rd, v, -, rfl⟩ | ⟨-, rfl⟩ | ⟨-, rfl⟩ |
    ⟨lid, -, ⟨hv, rfl | rfl⟩ | ⟨-, rfl⟩⟩
  · exact pcWithin_of_not_waiting hnotWaiting hp
  · exact pcWithin_of_not_waiting hnotWaiting hp
  · exact pcWithin_of_not_waiting hnotWaiting hp
  · exact ⟨hp.le, fun _ => hp⟩
  · exact pcWithin_of_not_waiting hnotWaiting (htarget lid hv).le
  · exact pcWithin_of_not_waiting hnotWaiting hp
  · exact pcWithin_of_not_waiting (by simp) hp.le

theorem step_keeps_pcWithin {s t : State} (hw : WithinProgram s) (hreset : ¬ HostIssues s .reset) (h : step s = .next t) :
    PcWithin t := by
  obtain ⟨hstarted, ⟨-, -, htarget⟩, hp, hwait, -⟩ := hw
  rcases step_next_cases h with ⟨tx, rest, hh, -, ⟨ha, rfl⟩ | ⟨-, rfl⟩⟩ |
    ⟨rest, -, ⟨-, rfl⟩ | ⟨-, -, rfl⟩ | ⟨-, -, rfl⟩ | ⟨-, -, -, rfl⟩ | ⟨hr, hlt, i, -, he⟩⟩
  · rcases allowedIn_outside_idle ha hstarted with rfl | rfl | ⟨hr, rfl | rfl⟩
    · exact absurd ⟨rest, hh⟩ hreset
    · exact ⟨hp, hwait⟩
    · exact pcWithin_of_not_waiting (by simp [State.applyTx]) (hwait hr)
    · exact pcWithin_of_not_waiting (by simp [State.applyTx]) hp
  · exact ⟨hp, hwait⟩
  · exact ⟨hp, hwait⟩
  · exact pcWithin_of_not_waiting (by simp) hp
  · exact pcWithin_of_not_waiting (by simp) hp
  · exact pcWithin_of_not_waiting (by simp) hp
  · exact exec_keeps_pcWithin (s := { s with host := rest }) hr hlt htarget he

/-! ### A started run stays one -/

/-- A cause is recorded only where it is due. -/
theorem step_cause_ne {s t : State} {c : Cause} (hnone : c ≠ .none) (hc : s.cause ≠ c)
    (hdue : ∀ rest info, ¬ FaultDue s rest c info) (h : step s = .next t) : t.cause ≠ c := by
  rcases step_fault_cases h with ⟨rest, c', info, hdue', rfl⟩ | ⟨-, hsame | hcleared⟩
  · rintro rfl
    exact hdue rest info hdue'
  · rwa [hsame]
  · rw [hcleared]
    exact hnone.symm

/-- Only RESET leads back to IDLE (R40). -/
theorem step_run_ne_idle {s t : State} (hr : s.run ≠ .idle) (hreset : ¬ HostIssues s .reset) (h : step s = .next t) :
    t.run ≠ .idle := by
  intro hidle
  have htabled := runStateChangesAreTheTabledOnes.2 s t h
  simp only [hidle, reduceCtorEq, false_and, and_false, or_false] at htabled
  rcases htabled with hsame | ⟨-, hissues⟩
  · exact hr hsame.symm
  · exact hreset hissues

theorem step_keeps_withinProgram {s t : State} (hw : WithinProgram s) (hreset : ¬ HostIssues s .reset)
    (h : step s = .next t) : WithinProgram t := by
  have ⟨hpc, hwait⟩ := step_keeps_pcWithin hw hreset h
  obtain ⟨hstarted, hpremises, hp, -, hcause⟩ := hw
  obtain ⟨hicount, himem, -, -, hlt, -⟩ := programIsImmutableOutsideIdle s t h hstarted hreset
  have hnotDue : ∀ rest info, ¬ FaultDue s rest .pcRange info := by
    intro rest info hdue
    cases hdue with
    | pcRange _ _ habove => exact absurd hp (Nat.not_le_of_lt habove)
  exact ⟨step_run_ne_idle hstarted hreset h, hpremises.congr (noStepChangesTheParameters s t h) hicount himem hlt, hpc, hwait,
    step_cause_ne (by decide) hcause hnotDue h⟩

theorem step_keeps_legalProgram {s t : State} (hstarted : s.run ≠ .idle) (hreset : ¬ HostIssues s .reset)
    (hl : LegalProgram s) (h : step s = .next t) : LegalProgram t := by
  obtain ⟨hicount, -, -, hfetch, -⟩ := programIsImmutableOutsideIdle s t h hstarted hreset
  intro i hi
  rw [hfetch]
  exact hl i (hicount ▸ hi)

theorem LegalProgram.not_illegalInstruction_due {s : State} (hl : LegalProgram s) (rest : List HostMove) (info : IWord) :
    ¬ FaultDue s rest .illegalInstruction info := by
  intro hdue
  cases hdue with
  | illegalInstruction _ _ hp hw =>
    have hlegal := (decode_accepts_iff_legalWord _).1 (hl s.pc hp)
    simp [hw] at hlegal

/-! ### Drawing the free values of unloaded memory otherwise (R230) -/

/-- A loaded word is fetched whatever the free values are. -/
theorem State.ifetch_epoch {s : State} {i : Nat} (h : s.loaded i = true) (e : Nat) :
    State.ifetch { s with epoch := e } i = s.ifetch i := by
  simp only [State.loaded, Bool.and_eq_true, Option.isSome_iff_exists] at h
  obtain ⟨⟨⟨⟨b0, h0⟩, b1, h1⟩, b2, h2⟩, b3, h3⟩ := h
  simp only [State.ifetch, State.imemByte, h0, h1, h2, h3, Option.getD_some]

theorem WithinProgram.ifetch_epoch {s : State} (hw : WithinProgram s) (hp : s.pc < s.icount) (e : Nat) :
    State.ifetch { s with epoch := e } s.pc = s.ifetch s.pc := by
  obtain ⟨-, ⟨-, hloaded, -⟩, -⟩ := hw
  exact State.ifetch_epoch (hloaded s.pc hp) e

theorem State.jumpIf_epoch (s : State) (taken : Bool) (lid e : Nat) :
    State.jumpIf { s with epoch := e } taken lid = { s.jumpIf taken lid with epoch := e } := by
  have hread : State.ltRead { s with epoch := e } lid = s.ltRead lid := rfl
  cases hv : (s.ltRead lid).valid with
  | true =>
    rw [State.jumpIf_of_valid hv, State.jumpIf_of_valid (hread ▸ hv)]
    rfl
  | false =>
    rw [State.jumpIf_of_invalid hv, State.jumpIf_of_invalid (hread ▸ hv)]
    rfl

/-- No instruction reads instruction memory. -/
theorem exec_epoch {i : Instr} {s t : State} (h : exec i s = .next t) (e : Nat) :
    exec i { s with epoch := e } = .next { t with epoch := e } := by
  cases i with
  | jz lid | jnz lid | j lid =>
    rw [next_inj h]
    exact congrArg Host.Outcome.next (State.jumpIf_epoch s _ lid e)
  | noop | debug | zero | mov | add | sub | inc | dec | and | or | xor | not | shl | shr =>
    rw [next_inj h]
    rfl

/-- RESET alone writes the epoch, and no transaction reads it. -/
theorem applyTx_epoch {tx : HostTx} (htx : tx ≠ .reset) (s : State) (e : Nat) :
    State.applyTx { s with epoch := e } tx = { s.applyTx tx with epoch := e } := by
  cases tx with
  | reset => exact absurd rfl htx
  | loadImem | loadLt | setIcount | preload | start | resume | inputFail | read => rfl

theorem step_waits {s : State} {rest : List HostMove} (hq : QuietThen s rest) (hr : s.run ≠ .run) :
    step s = .next { s with host := rest } := by
  rw [step_quiet hq, blockStep]
  split
  · exact absurd ‹_› hr
  all_goals rfl

/-! ### The obligations: a started run -/

/-- Settles O52: the program stays as it is, `pc` stays in `0..N`, so PC_RANGE is never due; nor is ILLEGAL_INSTRUCTION where every
word is legal. -/
theorem loaderPremisesKeepTheRunWithinTheProgram : Obligations.LoaderPremisesKeepTheRunWithinTheProgram := by
  unfold Obligations.LoaderPremisesKeepTheRunWithinTheProgram
  intro s t hw h hreset
  have ⟨hstarted, _⟩ := hw
  refine ⟨step_keeps_withinProgram hw hreset h, fun hl hcause => ⟨step_keeps_legalProgram hstarted hreset hl h, ?_⟩⟩
  exact step_cause_ne (by decide) hcause hl.not_illegalInstruction_due h

/-- Settles O53: of what a step can do only the fetch reads instruction memory, below N, where every word is loaded. -/
theorem unloadedMemoryIsNeverSeen : Obligations.UnloadedMemoryIsNeverSeen := by
  unfold Obligations.UnloadedMemoryIsNeverSeen
  intro s t e hw hreset h
  rcases step_next_cases h with ⟨tx, rest, hh, hl, ⟨ha, rfl⟩ | ⟨ha, rfl⟩⟩ |
    ⟨rest, hq, ⟨hr, rfl⟩ | ⟨hr, hp, rfl⟩ | ⟨hr, hp, rfl⟩ | ⟨hr, hp, hd, rfl⟩ | ⟨hr, hp, i, hd, he⟩⟩
  · have htx : tx ≠ .reset := fun htx => hreset ((hostIssues_iff_of_issue hh .reset).2 htx.symm)
    rw [step_issue_allowed (s := { s with epoch := e }) hh hl ha]
    exact congrArg Host.Outcome.next (applyTx_epoch htx { s with host := rest } e)
  · exact step_issue_notAllowed (s := { s with epoch := e }) hh hl ha
  · exact step_waits (s := { s with epoch := e }) hq hr
  · exact step_halts (s := { s with epoch := e }) hq hr hp
  · exact step_raises_pcRange (s := { s with epoch := e }) hq hr hp
  · have hfetch := hw.ifetch_epoch hp e
    have hdue : FaultDue { s with epoch := e } rest .illegalInstruction (State.ifetch { s with epoch := e } s.pc) :=
      .illegalInstruction hq hr hp (by rw [hfetch]; exact (decode_rejects_iff _).1 hd)
    rw [hdue.step_eq, hfetch]
    rfl
  · rw [step_decoded (s := { s with epoch := e }) hq hr hp ((hw.ifetch_epoch hp e).symm ▸ hd)]
    exact exec_epoch he e

/-! ### RESET (R230) -/

theorem State.reg_reset (r : Reg) : State.reset.reg r = 0#64 := by simp [State.reg, State.reset]

theorem hasResetValues_reset : HasResetValues State.reset :=
  ⟨State.reg_reset, rfl, rfl, rfl, rfl, rfl, rfl, rfl, rfl, fun _ => rfl, fun _ => rfl⟩

/-- What RESET takes over from the state before stands in none of the table's fields. -/
theorem hasResetValues_resetBlock (s : State) : HasResetValues s.resetBlock := hasResetValues_reset

/-! ### The host's transactions one after another (R234) -/

/-- A transaction that R45 lists and that writes the block in IDLE without starting it. -/
def ListedLoad (c : Params) (tx : HostTx) : Prop := TxListed c tx ∧ idleOnly tx = true ∧ tx ≠ .start

theorem ListedLoad.applyTx_run {c : Params} {tx : HostTx} (h : ListedLoad c tx) (s : State) : (s.applyTx tx).run = s.run := by
  obtain ⟨-, hidle, hstart⟩ := h
  cases tx with
  | loadImem | loadLt | setIcount | preload => rfl
  | start => exact absurd rfl hstart
  | reset | resume | inputFail | read => cases hidle

theorem applyTx_host (s : State) (tx : HostTx) (rest : List HostMove) :
    State.applyTx { s with host := rest } tx = { s.applyTx tx with host := rest } := by
  cases tx <;> rfl

/-- Loads that the host issues in IDLE take one step each, and then the run goes on. -/
theorem stepsTo_of_loads {txs : List HostTx} {s t : State} {rest : List HostMove} {k : Nat}
    (hh : s.host = txs.map .issue ++ rest) (hr : s.run = .idle) (hloads : ∀ tx ∈ txs, ListedLoad s.cfg tx)
    (hrest : stepsTo k (txs.foldl State.applyTx { s with host := rest }) t) : stepsTo (txs.length + k) s t := by
  induction txs generalizing s with
  | nil =>
    have hsame : { s with host := rest } = s := by rw [← show s.host = rest from hh]
    rw [List.length_nil, Nat.zero_add]
    exact hsame ▸ hrest
  | cons tx txs ih =>
    obtain ⟨htx, htxs⟩ := List.forall_mem_cons.1 hloads
    have ⟨hlisted, hidle, _⟩ := htx
    have hstep := step_issue_allowed hh hlisted ((allowedIn_idleOnly hidle _).2 hr)
    rw [applyTx_host] at hstep
    rw [List.length_cons, Nat.add_right_comm]
    refine stepsTo_succ hstep (ih rfl ((htx.applyTx_run s).trans hr) ?_ ?_)
    · simpa only [applyTx_keeps_cfg] using htxs
    · rwa [List.foldl_cons, applyTx_host] at hrest

/-! ### The words after LOAD_IMEM of all of them -/

/-- The word stands at the index, loaded by the host. -/
def State.Holds (s : State) (i : Nat) (w : IWord) : Prop := s.loaded i = true ∧ s.ifetch i = w

theorem State.holds_loadWord (s : State) (i : Nat) (w : IWord) : (s.loadWord i w).Holds i w := by
  simp [State.Holds, State.loaded_loadWord, State.ifetch_loadWord]

theorem State.Holds.loadWord {s : State} {j : Nat} {v : IWord} (h : s.Holds j v) {i : Nat} (hne : j ≠ i) (w : IWord) :
    (s.loadWord i w).Holds j v := by
  simpa [State.Holds, State.loaded_loadWord, State.ifetch_loadWord, hne] using h

theorem State.Holds.loadWordsFrom {s : State} {j : Nat} {v : IWord} (h : s.Holds j v) {i : Nat} (hj : j < i)
    (ws : List IWord) : ((loadWordsFrom i ws).foldl State.applyTx s).Holds j v := by
  induction ws generalizing s i with
  | nil => exact h
  | cons w ws ih => exact ih (h.loadWord hj.ne w) (by omega)

theorem holds_loadWordsFrom {ws : List IWord} {k : Nat} {w : IWord} (h : ws[k]? = some w) (s : State) (i : Nat) :
    ((loadWordsFrom i ws).foldl State.applyTx s).Holds (i + k) w := by
  induction ws generalizing s i k with
  | nil => simp at h
  | cons v ws ih =>
    cases k with
    | zero =>
      obtain rfl : v = w := by simpa using h
      exact (s.holds_loadWord i v).loadWordsFrom (Nat.lt_succ_self i) ws
    | succ k =>
      rw [Nat.add_comm k, ← Nat.add_assoc]
      exact ih (by simpa using h) (s.loadWord i v) (i + 1)

theorem loadWordsFrom_writes_imem (s : State) (i : Nat) (ws : List IWord) :
    ∃ m, (loadWordsFrom i ws).foldl State.applyTx s = { s with imem := m } := by
  induction ws generalizing s i with
  | nil => exact ⟨s.imem, rfl⟩
  | cons w ws ih => exact ih (s.loadWord i w) (i + 1)

theorem mem_loadWordsFrom {tx : HostTx} {i : Nat} {ws : List IWord} (h : tx ∈ loadWordsFrom i ws) :
    ∃ j w, tx = .loadImem j w ∧ j < i + ws.length := by
  induction ws generalizing i with
  | nil => cases h
  | cons w ws ih =>
    rw [List.length_cons]
    rcases List.mem_cons.1 h with rfl | h
    · exact ⟨i, w, rfl, by omega⟩
    · obtain ⟨j, v, rfl, hj⟩ := ih h
      exact ⟨j, v, rfl, by omega⟩

/-! ### The entries and registers after LOAD_LT and PRELOAD of distinct ones -/

/-- No two pairs of the list have the same key. -/
def DistinctKeys {κ α : Type} (ps : List (κ × α)) : Prop := ps.Pairwise (fun p q => p.1 ≠ q.1)

/-- Where each transaction of a list sets what is read at its own key, and the keys are distinct, what is read at a key at the
end is what the list says of it, or what was read before. -/
theorem read_foldl_applyTx {κ α β : Type} [DecidableEq κ] {read : State → κ → β} {tx : κ × α → HostTx} {val : α → β}
    (hread : ∀ s p k, read (State.applyTx s (tx p)) k = if k = p.1 then val p.2 else read s k)
    {ps : List (κ × α)} (hps : DistinctKeys ps) (s : State) (k : κ) :
    read ((ps.map tx).foldl State.applyTx s) k = ((ps.find? (fun p => p.1 = k)).map (fun p => val p.2)).getD (read s k) := by
  induction ps generalizing s with
  | nil => rfl
  | cons p ps ih =>
    obtain ⟨hp, hrest⟩ := List.pairwise_cons.1 hps
    rw [List.map_cons, List.foldl_cons, ih hrest, hread, List.find?_cons]
    by_cases hk : p.1 = k
    · subst hk
      have hnone : ps.find? (fun q => decide (q.1 = p.1)) = none :=
        List.find?_eq_none.2 fun q hq => by simpa using (hp q hq).symm
      simp [hnone]
    · simp [hk, Ne.symm hk]

theorem loadLts_write_lt (s : State) (ls : List (Nat × Nat)) :
    ∃ l, (ls.map (fun l => HostTx.loadLt l.1 l.2)).foldl State.applyTx s = { s with lt := l } := by
  induction ls generalizing s with
  | nil => exact ⟨s.lt, rfl⟩
  | cons l ls ih => exact ih (s.loadLabel l.1 l.2)

theorem preloads_write_x (s : State) (ps : List (Reg × Word)) :
    ∃ x, (ps.map (fun p => HostTx.preload p.1 p.2)).foldl State.applyTx s = { s with x := x } := by
  induction ps generalizing s with
  | nil => exact ⟨s.x, rfl⟩
  | cons p ps ih => exact ih (s.setReg p.1 p.2)

/-! ### The labels and the preloads of a launch have distinct keys -/

theorem Cells.le_of_mem_rising {α : Type} {lo : Nat} {l : List (Nat × α)} (hl : Cells.risingFrom lo l = true) {c : Nat × α}
    (hc : c ∈ l) : lo ≤ c.1 := by
  induction l generalizing lo with
  | nil => cases hc
  | cons d l ih =>
    simp only [Cells.risingFrom, Bool.and_eq_true, decide_eq_true_eq] at hl
    rcases List.mem_cons.1 hc with rfl | hc
    · exact hl.1
    · have := ih hl.2 hc
      omega

theorem Cells.distinctKeys_of_rising {α : Type} {lo : Nat} {l : List (Nat × α)} (hl : Cells.risingFrom lo l = true) :
    DistinctKeys l := by
  induction l generalizing lo with
  | nil => exact .nil
  | cons d l ih =>
    simp only [Cells.risingFrom, Bool.and_eq_true, decide_eq_true_eq] at hl
    exact .cons (fun _ hc => Nat.ne_of_lt (Cells.le_of_mem_rising hl.2 hc)) (ih hl.2)

theorem Cells.read_eq_find? {α : Type} (l : List (Nat × α)) (a : Nat) :
    Cells.read l a = (l.find? (fun c => c.1 = a)).map Prod.snd := by
  induction l with
  | nil => rfl
  | cons c l ih => by_cases h : c.1 = a <;> simp [Cells.read, h, ih]

theorem ParsedLine.rising_record {names : List (List Char)} {q : ParsedLine} {i : Nat} {labels : List (Nat × Nat)}
    (h : Cells.risingFrom 0 labels = true) : Cells.risingFrom 0 (q.record names i labels) = true := by
  cases q with
  | plain | jump => exact h
  | declare => exact Cells.risingFrom_write i (Nat.zero_le _) h

theorem ParsedLine.rising_recordAll {names : List (List Char)} {parsed : List ParsedLine} {i : Nat}
    {labels : List (Nat × Nat)} (h : Cells.risingFrom 0 labels = true) :
    Cells.risingFrom 0 (recordAll names i labels parsed) = true := by
  induction parsed generalizing i labels with
  | nil => exact h
  | cons q parsed ih => exact ih (rising_record h)

theorem assemble_labels_distinct {lines : List (List Char)} {p : Program} (h : assemble lines = .ok p) :
    DistinctKeys p.labels := by
  obtain ⟨names, parsed, -, hp⟩ := assemble_assembledWith h
  rw [hp.labels_eq]
  exact Cells.distinctKeys_of_rising (ParsedLine.rising_recordAll rfl)

/-- Two overrides of one register are refused (D29). -/
theorem preloadsOf_distinct {overrides : List (Reg × Int)} {ps : List (Reg × Word)} (h : preloadsOf overrides = some ps) :
    DistinctKeys ps := by
  induction overrides generalizing ps with
  | nil =>
    cases h
    exact .nil
  | cons o overrides ih =>
    rw [preloadsOf] at h
    split at h
    · next v ps' _ hps' =>
      split at h
      · cases h
      · next hnew =>
        cases h
        simp only [Bool.not_eq_true, List.any_eq_false, decide_eq_true_eq] at hnew
        exact .cons (fun p hp => Ne.symm (hnew p hp)) (ih hps')
    · cases h

/-! ### The boot of an assembled program -/

/-- The boot transactions before START. -/
def bootLoads (p : Program) (preloads : List (Reg × Word)) : List HostTx :=
  .setIcount p.words.length ::
    (loadWordsFrom 0 p.words ++ p.labels.map (fun l => .loadLt l.1 l.2) ++ preloads.map (fun r => .preload r.1 r.2))

theorem bootTxs_eq (p : Program) (preloads : List (Reg × Word)) : bootTxs p preloads = bootLoads p preloads ++ [.start] := rfl

theorem bootLoads_listed {c : Params} {p : Program} (preloads : List (Reg × Word))
    (hn : p.words.length ≤ 2 ^ c.pcWidth - 1) (hlabels : ∀ l ∈ p.labels, l.1 < 2 ^ 24 ∧ l.2 < p.words.length) :
    ∀ tx ∈ bootLoads p preloads, ListedLoad c tx := by
  intro tx htx
  simp only [bootLoads, List.mem_cons, List.mem_append, List.mem_map] at htx
  rcases htx with rfl | (hword | ⟨l, hl, rfl⟩) | ⟨r, -, rfl⟩
  · exact ⟨hn, rfl, by simp⟩
  · obtain ⟨i, w, rfl, hi⟩ := mem_loadWordsFrom hword
    have hfits : i < 2 ^ c.pcWidth - 1 := by omega
    exact ⟨hfits, rfl, by simp⟩
  · obtain ⟨hlid, htarget⟩ := hlabels l hl
    have hfits : l.2 < 2 ^ c.pcWidth := by omega
    exact ⟨⟨hlid, hfits⟩, rfl, by simp⟩
  · exact ⟨trivial, rfl, by simp⟩

/-- The program and the preloads stand in the state: each word at its index, each label's entry, each register. -/
structure Booted (p : Program) (preloads : List (Reg × Word)) (s t : State) : Prop where
  icount_eq : t.icount = p.words.length
  holds : ∀ (i : Nat) w, p.words[i]? = some w → t.Holds i w
  ltRead_eq : ∀ lid, t.ltRead lid =
    ((Cells.read p.labels lid).map (fun d => ({ valid := true, target := d } : LtEntry))).getD (s.ltRead lid)
  reg_eq : ∀ r, t.reg r = ((preloads.find? (fun q => q.1 = r)).map Prod.snd).getD (s.reg r)

/-- What the loads leave: each group writes its own field, and there what the list says. -/
theorem bootLoads_booted {p : Program} {preloads : List (Reg × Word)} (hlabels : DistinctKeys p.labels)
    (hpreloads : DistinctKeys preloads) (s : State) :
    ∃ m l x, (bootLoads p preloads).foldl State.applyTx s =
        { s with icount := p.words.length, imem := m, lt := l, x := x } ∧
      Booted p preloads s { s with icount := p.words.length, imem := m, lt := l, x := x } := by
  let s₀ : State := { s with icount := p.words.length }
  obtain ⟨m, hm⟩ := loadWordsFrom_writes_imem s₀ 0 p.words
  obtain ⟨l, hl⟩ := loadLts_write_lt { s₀ with imem := m } p.labels
  obtain ⟨x, hx⟩ := preloads_write_x { s₀ with imem := m, lt := l } preloads
  refine ⟨m, l, x, ?_, rfl, fun i w hw => ?_, fun lid => ?_, fun r => ?_⟩
  · rw [bootLoads, List.foldl_cons, List.foldl_append, List.foldl_append]
    rw [show s.applyTx (.setIcount p.words.length) = s₀ from rfl, hm, hl, hx]
  · have hholds := holds_loadWordsFrom hw s₀ 0
    rw [hm, Nat.zero_add] at hholds
    exact hholds
  · have hread := read_foldl_applyTx (read := State.ltRead) (tx := fun l => .loadLt l.1 l.2)
      (val := fun d => { valid := true, target := d })
      (fun s p lid => s.ltRead_loadLabel p.1 p.2 lid) hlabels { s₀ with imem := m } lid
    rw [hl] at hread
    rw [Cells.read_eq_find?, Option.map_map]
    exact hread
  · have hread := read_foldl_applyTx (read := State.reg) (tx := fun q => .preload q.1 q.2) (val := id)
      (fun s p r => s.reg_setReg p.1 r p.2) hpreloads { s₀ with imem := m, lt := l } r
    rw [hx] at hread
    exact hread

/-- The launch of a program that fits the block: the loads, and START from the state they leave. -/
theorem stepsTo_bootMoves {c : Params} {p : Program} {preloads : List (Reg × Word)}
    (hn : p.words.length ≤ 2 ^ c.pcWidth - 1) (hlabels : ∀ l ∈ p.labels, l.1 < 2 ^ 24 ∧ l.2 < p.words.length)
    (hdistinct : DistinctKeys p.labels) (hpreloads : DistinctKeys preloads) :
    ∃ m l x, let t : State := { State.reset with cfg := c, icount := p.words.length, imem := m, lt := l, x := x, run := .run }
      stepsTo (bootMoves p preloads).length { State.reset with cfg := c, host := bootMoves p preloads } t ∧
      Booted p preloads State.reset t := by
  obtain ⟨m, l, x, hloaded, hicount, hholds, hlt, hreg⟩ :=
    bootLoads_booted hdistinct hpreloads { State.reset with cfg := c, host := [.issue .start] }
  refine ⟨m, l, x, ?_, hicount, hholds, hlt, hreg⟩
  have hmoves : bootMoves p preloads = (bootLoads p preloads).map .issue ++ [.issue .start] := by
    rw [bootMoves, bootTxs_eq, List.map_append]
    rfl
  rw [hmoves, List.length_append, List.length_map]
  refine stepsTo_of_loads rfl rfl (bootLoads_listed preloads hn hlabels) ?_
  rw [hloaded]
  exact stepsTo_one (step_issue_allowed (tx := .start) (rest := []) rfl trivial rfl)

theorem Cells.mem_of_read {α : Type} {l : List (Nat × α)} {a : Nat} {v : α} (h : Cells.read l a = some v) : (a, v) ∈ l := by
  rw [Cells.read_eq_find?, Option.map_eq_some_iff] at h
  obtain ⟨c, hc, rfl⟩ := h
  obtain rfl : c.1 = a := by simpa using List.find?_some hc
  exact List.mem_of_find?_eq_some hc

section
variable {p : Program} {preloads : List (Reg × Word)} {t : State}

/-- The boot meets P1 to P3 (R235). -/
theorem Booted.loaderPremises (h : Booted p preloads State.reset t) (hn : p.words.length ≤ 2 ^ t.cfg.pcWidth - 1)
    (hlabels : ∀ l ∈ p.labels, l.2 < p.words.length) : LoaderPremises t := by
  rw [LoaderPremises, h.icount_eq]
  refine ⟨hn, fun i hi => ?_, fun lid hv => ?_⟩
  · have ⟨hloaded, _⟩ := h.holds i _ (List.getElem?_eq_getElem hi)
    exact hloaded
  · rw [h.ltRead_eq] at hv ⊢
    cases hread : Cells.read p.labels lid with
    | some d => exact hlabels _ (Cells.mem_of_read hread)
    | none =>
      rw [hread] at hv
      cases hv

/-- Where the words of the program are legal, so are those the booted block fetches: P4 (R109, R235). -/
theorem Booted.legalProgram (h : Booted p preloads State.reset t) (hwords : ∀ w ∈ p.words, legalWord w = true) :
    LegalProgram t := by
  intro i hi
  rw [h.icount_eq] at hi
  obtain ⟨-, hfetch⟩ := h.holds i _ (List.getElem?_eq_getElem hi)
  rw [hfetch]
  exact (decode_accepts_iff_legalWord _).2 (hwords _ (List.getElem_mem hi))

end

/-! ### The obligations: reset, START and the boot -/

/-- Settles O34: RESET is allowed in every run state and leaves the reset state but for what it takes over. -/
theorem resetGivesTheResetTable : Obligations.ResetGivesTheResetTable := by
  unfold Obligations.ResetGivesTheResetTable
  refine ⟨hasResetValues_reset, fun s rest hh => ?_⟩
  exact ⟨_, step_issue_allowed hh trivial rfl, hasResetValues_resetBlock { s with host := rest }, rfl, rfl⟩

/-- Settles O58: the loads put the assembler's output in place, and that output is legal, with targets below N. -/
theorem bootReachesTheAssembledProgram : Obligations.BootReachesTheAssembledProgram := by
  unfold Obligations.BootReachesTheAssembledProgram
  intro c lines overrides moves p preloads hp hpreloads hlaunch _ hfits
  obtain ⟨hlength, -, hlabels, hwords⟩ := assemblerOutputHasOneLegalWordPerLine lines p hp
  obtain rfl : bootMoves p preloads = moves := by simpa [launch, hp, hpreloads] using hlaunch
  rw [← hlength] at hfits hlabels ⊢
  obtain ⟨m, l, x, hsteps, hbooted⟩ :=
    stepsTo_bootMoves hfits hlabels (assemble_labels_distinct hp) (preloadsOf_distinct hpreloads)
  refine ⟨_, hsteps, rfl, rfl, rfl, rfl, rfl, fun i w hw => (hbooted.holds i w hw).2, fun lid => ?_, fun r => ?_, ?_,
    hbooted.legalProgram hwords⟩
  · rw [hbooted.ltRead_eq]
    cases Cells.read p.labels lid <;> rfl
  · rw [hbooted.reg_eq, State.reg_reset]
    cases preloads.find? (fun q => q.1 = r) <;> rfl
  · have hpremises := hbooted.loaderPremises hfits fun l hl => (hlabels l hl).2
    exact ⟨by simp, hpremises, Nat.zero_le _, by simp, by simp [State.reset]⟩

/-- Settles O35: START writes the run state alone; `pc` is 0 in IDLE already. -/
theorem startBeginsAtIndexZero : Obligations.StartBeginsAtIndexZero := by
  unfold Obligations.StartBeginsAtIndexZero
  intro s rest hh hr hc
  obtain ⟨⟨hpc, -⟩, -⟩ := (runStateConsistent_of_idle hr).1 hc
  exact ⟨_, step_issue_allowed hh trivial ((allowedIn_idleOnly rfl _).2 hr), rfl, hpc, rfl⟩

/-- Settles O26: the decoder run on each of the twelve words. -/
theorem specWordsDecodeAsListed : Obligations.SpecWordsDecodeAsListed := by
  unfold Obligations.SpecWordsDecodeAsListed
  decide

end Sys2Proof.Machine
